-- ==== Sys2Proof/Word.lean ====
section
/-! DEFINITION. The word types of the block: bytes of a frame and the register widths of spec/10_state.md R11. -/

namespace Sys2Proof

/-- A byte is 8 bits (00_scope.md R9). -/
abbrev Byte := BitVec 8

/-- The width of `K` and of the frame's `LEN` field (R11, R46). -/
abbrev Word32 := BitVec 32

/-- The width of `M`, `SA`, `SB` and of a base hash value, `HW = 64` (R11, R6, R77). -/
abbrev Word64 := BitVec 64

end Sys2Proof
end

