-- ==== Sys2Proof/Config.lean ====
section
/-! DEFINITION. The build-time parameters of 00_scope.md R6, and the values the spec leaves open, as constants
without a body. -/

namespace Sys2Proof

/-- The two builds of the block (R3). -/
inductive Variant where
  | baseline
  | counting
deriving DecidableEq, Repr

/-- The numeric build-time parameters of R6. -/
structure Build where
  /-- `VARIANT`, the kind of cell. -/
  variant : Variant
  /-- `CW`, the width of one cell in bits. -/
  cw : Nat
  /-- `M_MAX`, the number of cells the array physically holds. -/
  mMax : Nat
  /-- `K_MAX`, the largest hash count accepted. -/
  kMax : Nat
  /-- `KEY_MAX`, the largest key length in bytes. -/
  keyMax : Nat
  /-- `HAS_INTERSECT`, whether `INT` is implemented. -/
  hasIntersect : Bool
deriving DecidableEq, Repr

/-- The defaults of R6: a baseline build. -/
def Build.default : Build :=
  { variant := .baseline, cw := 1, mMax := 2 ^ 20, kMax := 2 ^ 32 - 1, keyMax := 2 ^ 32 - 5, hasIntersect := true }

/-- The default counting build of R6 (`CW = 4`). -/
def Build.counting4 : Build := { Build.default with variant := .counting, cw := 4 }

/-- The column "legal values" of R6 for `CW`. -/
def Build.cwOk (b : Build) : Bool :=
  match b.variant with
  | .baseline => b.cw == 1
  | .counting => decide (2 ≤ b.cw) && decide (b.cw ≤ 16)

/-- The column "legal values" of R6, with the constraint that an image fits one frame (90_conflicts.md C9: 28). -/
def Build.ok (b : Build) : Bool :=
  b.cwOk && decide (1 ≤ b.mMax) && decide (b.mMax ≤ 2 ^ 64 - 1) &&
  decide (28 + (b.mMax * b.cw + 7) / 8 ≤ 2 ^ 32 - 1) &&
  decide (1 ≤ b.kMax) && decide (b.kMax ≤ 2 ^ 32 - 1) && decide (b.keyMax ≤ 2 ^ 32 - 5)

namespace Config

/-- The base hash (R77, 93 U3): total and deterministic, nothing else is known of it.
DESIGN CHOICE (log 8), safe. -/
opaque baseHash : Word64 → List Byte → Word64

/-- What `NumCard` gives for `0 < ones < M` before the constraint of R98 (d) is put on it (`Machine/Flags.lean`).
DESIGN CHOICE (log 9), safe. -/
opaque cardRaw : Nat → Nat → Nat → Word64

/-- What `NumFpr` gives for `0 < ones < M` before the constraint of R98 (d) is put on it.
DESIGN CHOICE (log 9), safe. -/
opaque fprRaw : Nat → Nat → Nat → Word64

/-- The content of `M` after a reset input, unspecified (10_state.md R22). DESIGN CHOICE (log 3), safe. -/
opaque unspecM : Nat → Word64

/-- The content of `K` after a reset input, unspecified (R22). -/
opaque unspecK : Nat → Word32

/-- The content of `SA` after a reset input, unspecified (R22). -/
opaque unspecSA : Nat → Word64

/-- The content of `SB` after a reset input, unspecified (R22). -/
opaque unspecSB : Nat → Word64

/-- What the cells hold after a reset input, unspecified (R22): a list of position and value. -/
opaque unspecCells : Nat → List (Nat × Nat)

/-- What the response channel delivers for a command that a reset cuts off: nothing, or some frame
(70 R166, 92 D24 "an unspecified response"). DESIGN CHOICE (log 4), safe. -/
opaque cutOffResponse : Nat → Option (List Byte)

end Config

end Sys2Proof
end

