-- ==== Sys2Proof/Syntax.lean ====
section
/-! DEFINITION. The ten commands of 30_encoding.md R49, with the operands of R50. -/

namespace Sys2Proof

/-- One constructor per row of spec/opcode_table.json. A key and an image are byte sequences, first byte first (R9). -/
inductive Instr where
  /-- `CFG m, k, sa, sb` (40 R66). -/
  | cfg (m : Word64) (k : Word32) (sa sb : Word64)
  /-- `INS key` (42 R91, 43 R113). -/
  | ins (key : List Byte)
  /-- `QRY key` (42 R93, 43 R114). -/
  | qry (key : List Byte)
  /-- `REM key` (43 R115). -/
  | rem (key : List Byte)
  /-- `EST` (42 R96). -/
  | est
  /-- `IDX i, key` (41 R82). -/
  | idx (i : Word32) (key : List Byte)
  /-- `DUMP` (44 R129). -/
  | dump
  /-- `LOAD image` (44 R130). -/
  | load (image : List Byte)
  /-- `UNI image` (42 R100). -/
  | uni (image : List Byte)
  /-- `INT image` (42 R101). -/
  | int (image : List Byte)
deriving DecidableEq, Repr

end Sys2Proof
end

