-- ==== Sys2Proof/WellFormed.lean ====
section
/-! DEFINITION. Which instructions have an encoding in a build: the column "LEN must be" of 30_encoding.md R49,
said of the operands, and the 32 bits of `LEN`. -/

namespace Sys2Proof

/-- A key is a byte sequence of length 0 to `KEY_MAX` (R49, 92 D11). -/
def keyOk (b : Build) (key : List Byte) : Bool := decide (key.length ≤ b.keyMax)

/-- An image operand is at least its 28 header bytes and fits a frame (R46, R49). -/
def imageOk (image : List Byte) : Bool := decide (28 ≤ image.length) && decide (image.length < 2 ^ 32)

/-- The instruction has a frame in build `b`. -/
def Instr.wf (b : Build) : Instr → Bool
  | .cfg _ _ _ _ => true
  | .ins key => keyOk b key
  | .qry key => keyOk b key
  | .rem key => keyOk b key
  | .est => true
  | .idx _ key => keyOk b key
  | .dump => true
  | .load image => imageOk image
  | .uni image => imageOk image
  | .int image => imageOk image

end Sys2Proof
end

