-- ==== Sys2Proof/Decode.lean ====
section
/-! DEFINITION. Decoding a command frame, total and rejecting by name (30_encoding.md R46, R49, R50, R53, R54), and
after it the encoder (R57). -/

namespace Sys2Proof

/-- `be_{8n}(v)`: the `n` low bytes of `v`, most significant byte first (00_scope.md R9). -/
def be : Nat → Nat → List Byte
  | 0, _ => []
  | n + 1, v => BitVec.ofNat 8 (v / 256 ^ n) :: be n v

/-- `from_be(s)`: the number a byte sequence stands for, most significant byte first (R9). -/
def fromBe : List Byte → Nat
  | [] => 0
  | x :: xs => x.toNat * 256 ^ xs.length + fromBe xs

/-- The `n` bytes of `s` from byte `a` on. -/
def slice (a n : Nat) (s : List Byte) : List Byte := (s.drop a).take n

/-- The mnemonics of the opcode map (R49). -/
inductive Opcode where
  | cfg | ins | qry | rem | est | idx | dump | load | uni | int
deriving DecidableEq, Repr

/-- The column `OPC` of R49. -/
def Opcode.code : Opcode → Byte
  | .cfg => 0x01#8
  | .ins => 0x02#8
  | .qry => 0x03#8
  | .rem => 0x04#8
  | .est => 0x05#8
  | .idx => 0x06#8
  | .dump => 0x07#8
  | .load => 0x08#8
  | .uni => 0x09#8
  | .int => 0x0A#8

/-- The command an `OPC` byte selects; every other byte is reserved (R54). -/
def Opcode.ofByte (o : Byte) : Option Opcode :=
  match o.toNat with
  | 0x01 => some .cfg
  | 0x02 => some .ins
  | 0x03 => some .qry
  | 0x04 => some .rem
  | 0x05 => some .est
  | 0x06 => some .idx
  | 0x07 => some .dump
  | 0x08 => some .load
  | 0x09 => some .uni
  | 0x0A => some .int
  | _ => none

/-- The column "LEN must be" of R49. -/
def lenAllowed (b : Build) (op : Opcode) (len : Nat) : Bool :=
  match op with
  | .cfg => len == 28
  | .ins => decide (len ≤ b.keyMax)
  | .qry => decide (len ≤ b.keyMax)
  | .rem => decide (len ≤ b.keyMax)
  | .est => len == 0
  | .idx => decide (4 ≤ len) && decide (len ≤ b.keyMax + 4)
  | .dump => len == 0
  | .load => decide (28 ≤ len)
  | .uni => decide (28 ≤ len)
  | .int => decide (28 ≤ len)

/-- The operands cut from the payload (R50). -/
def operands (op : Opcode) (p : List Byte) : Instr :=
  match op with
  | .cfg => .cfg (BitVec.ofNat 64 (fromBe (slice 0 8 p))) (BitVec.ofNat 32 (fromBe (slice 8 4 p)))
      (BitVec.ofNat 64 (fromBe (slice 12 8 p))) (BitVec.ofNat 64 (fromBe (slice 20 8 p)))
  | .ins => .ins p
  | .qry => .qry p
  | .rem => .rem p
  | .est => .est
  | .idx => .idx (BitVec.ofNat 32 (fromBe (slice 0 4 p))) (p.drop 4)
  | .dump => .dump
  | .load => .load p
  | .uni => .uni p
  | .int => .int p

/-- Why a frame is no command; all five give the verdict `Malformed` (R53). -/
inductive DecodeError where
  /-- Step (1): fewer than 8 bytes. -/
  | shortFrame
  /-- Step (2): a reserved byte is not zero. -/
  | reservedNotZero
  /-- Step (3): the frame is not `8 + LEN` bytes long. -/
  | lengthMismatch
  /-- Step (4): a reserved opcode. -/
  | reservedOpcode
  /-- Step (5): `LEN` is not allowed for the opcode. -/
  | lenNotAllowed
deriving DecidableEq, Repr

/-- Decode of R53, total on any byte sequence. -/
def decode (b : Build) : List Byte → Except DecodeError Instr
  | o :: r1 :: r2 :: r3 :: l3 :: l2 :: l1 :: l0 :: payload =>
    if r1 = 0#8 ∧ r2 = 0#8 ∧ r3 = 0#8 then
      if payload.length = fromBe [l3, l2, l1, l0] then
        match Opcode.ofByte o with
        | none => .error .reservedOpcode
        | some op => if lenAllowed b op payload.length then .ok (operands op payload) else .error .lenNotAllowed
      else .error .lengthMismatch
    else .error .reservedNotZero
  | _ => .error .shortFrame

/-- The opcode of a command (R49). -/
def Instr.opcode : Instr → Opcode
  | .cfg _ _ _ _ => .cfg
  | .ins _ => .ins
  | .qry _ => .qry
  | .rem _ => .rem
  | .est => .est
  | .idx _ _ => .idx
  | .dump => .dump
  | .load _ => .load
  | .uni _ => .uni
  | .int _ => .int

/-- The payload of a command (R50). -/
def Instr.payload : Instr → List Byte
  | .cfg m k sa sb => be 8 m.toNat ++ be 4 k.toNat ++ be 8 sa.toNat ++ be 8 sb.toNat
  | .ins key => key
  | .qry key => key
  | .rem key => key
  | .est => []
  | .idx i key => be 4 i.toNat ++ key
  | .dump => []
  | .load image => image
  | .uni image => image
  | .int image => image

/-- The frame of a command: `OPC ++ 00 00 00 ++ be_32(LEN) ++ PAYLOAD` (R57). -/
def encode (i : Instr) : List Byte :=
  [i.opcode.code, 0#8, 0#8, 0#8] ++ be 4 i.payload.length ++ i.payload

/-- The frame whose header is the table's 64-bit big-endian word `H` (R46, R49), the low 64 bits of `w`, followed by
the `LEN` payload bytes that `H` announces, taken from the bits of `w` above the header (zero above `nbits`).
DEDUCED (log 12), safe. -/
def tableFrame (nbits w : Nat) : List Byte :=
  let v := w % 2 ^ nbits
  be 8 v ++ (List.range (v % 2 ^ 32)).map (fun j => BitVec.ofNat 8 (v / 2 ^ (64 + 8 * j)))

/-- What the decoder of the default build reads from a row of spec/opcode_table.json. -/
def decodeTableWord (nbits w : Nat) : Option Instr :=
  (decode Build.default (tableFrame nbits w)).toOption

end Sys2Proof
end

