-- ==== Sys2Proof/Machine/State.lean ====
section
/-! DEFINITION. The state of the block (10_state.md R11), the channels it is driven and observed through
(30_encoding.md R45), and its state after reset (R22). -/

namespace Sys2Proof.Machine

/-- The cell array as position and value pairs. Positions rise strictly and no value is 0 (`Memory.wf`): a cell that
is not listed reads 0. The value is the `CW`-bit cell as a natural number, at most `CMAX` (R17 (b); log 10, log 11). -/
abbrev Memory := List (Nat × Nat)

/-- What the environment delivers next (70 R172: a run is a sequence of commands and resets). -/
inductive Input where
  /-- One command frame on the command channel (30 R45). -/
  | frame (f : List Byte)
  /-- The reset input, between two commands (70 R165). -/
  | reset
  /-- The reset input while the command `f` is executing (70 R166). -/
  | cutOff (f : List Byte)
deriving DecidableEq, Repr

/-- The six conditions (60_exceptions.md R141 to R149). A condition is no stop of the machine: the command answers its
code and the next command runs (R146, R150). -/
inductive Condition where
  | malformed
  | invalidParameters
  | shapeMismatch
  | notPresent
  | noFilter
  | unsupported
deriving DecidableEq, Repr

/-- Nothing stops the block: "no hang, no stuck state, `Step` total" (70 R173, 60 R161), so no fault exists. -/
inductive Fault where
deriving DecidableEq, Repr

/-- Why a step has no meaning. -/
inductive Refusal where
  /-- An arm of `exec` whose command has no meaning yet raises it; no arm does (safe). -/
  | notModelled (mnemonic : String)
deriving DecidableEq, Repr

/-- The state. `valid`, `m`, `k`, `sa`, `sb`, `arr` are the architectural state of R11; `inputs` and `responses` are the
two channels; `build` holds the build-time parameters (R6), which no step writes; `freeCount` numbers the unspecified
values met so far. -/
structure State where
  /-- The build-time parameters (R6), fixed for the block (log 1). -/
  build : Build
  /-- `VALID`: a resident filter exists. -/
  valid : Bool
  /-- `M`: the number of cells in use. -/
  m : Word64
  /-- `K`: the hash count. -/
  k : Word32
  /-- `SA`: the seed of base hash a. -/
  sa : Word64
  /-- `SB`: the seed of base hash b. -/
  sb : Word64
  /-- `ARR`: the cell array. -/
  arr : Memory
  /-- What the environment still delivers, oldest first (log 6). -/
  inputs : List Input
  /-- The response frames delivered so far, oldest first (R45, R172). -/
  responses : List (List Byte)
  /-- The model's own counter of unspecified values (log 5). -/
  freeCount : Nat
deriving DecidableEq, Repr

/-- The outcome of executing a command. -/
abbrev Result := Host.Outcome State Fault Refusal

/-- Right after reset: `VALID = 0` (R22). The other registers and the cells are unspecified there and unobservable
(R22, R23); the zeros are named by log 2 (DESIGN CHOICE, unsafe). The build is the table's default (log 1). -/
def State.reset : State :=
  { build := Build.default, valid := false, m := 0#64, k := 0#32, sa := 0#64, sb := 0#64, arr := [],
    inputs := [], responses := [], freeCount := 0 }

end Sys2Proof.Machine
end

