-- ==== Sys2Proof/Machine/Ops.lean ====
section
/-! DEFINITION. The shared operations: the cell array, the response channel, taking a condition, the checks of
60_exceptions.md R161 that stand before every command, and the reset input. -/

namespace Sys2Proof.Machine

/-! The cell array (20_memory.md R30, R34). -/

/-- `CellRead(p)` (R10, R34). -/
def Memory.read : Memory → Nat → Nat
  | [], _ => 0
  | (q, v) :: rest, p => if q = p then v else Memory.read rest p

/-- `CellWrite(p, v)` (R10, R34), keeping the canonical form. -/
def Memory.write : Memory → Nat → Nat → Memory
  | [], p, v => if v = 0 then [] else [(p, v)]
  | (q, w) :: rest, p, v =>
    if p < q then (if v = 0 then (q, w) :: rest else (p, v) :: (q, w) :: rest)
    else if p = q then (if v = 0 then rest else (p, v) :: rest)
    else (q, w) :: Memory.write rest p v

/-- The array of `n` cells whose cell `p` holds `f p`: the bulk form of `for p in 0 .. n-1: CellWrite(p, f p)`
over an array whose cells all become new (R30). -/
def Memory.ofFn (n : Nat) (f : Nat → Nat) : Memory :=
  (List.range n).filterMap (fun p => if f p = 0 then none else some (p, f p))

/-- The array that any list of cell contents describes, the first of two contents for one cell winning. -/
def Memory.ofCells : List (Nat × Nat) → Memory
  | [] => []
  | (p, v) :: rest => (Memory.ofCells rest).write p v

/-- The canonical form: positions rise strictly and no cell is listed with value 0. -/
def Memory.wf : Memory → Bool
  | [] => true
  | (p, v) :: rest => decide (v ≠ 0) && rest.all (fun c => decide (p < c.1)) && Memory.wf rest

/-- Every listed cell lies below `n` and holds at most `c` (R17 (b)). -/
def Memory.within (a : Memory) (n c : Nat) : Bool := a.all (fun e => decide (e.1 < n) && decide (e.2 ≤ c))

/-- `CMAX = 2^CW - 1` (R6). -/
def cmax (b : Build) : Nat := 2 ^ b.cw - 1

/-! The response channel (30_encoding.md R47, R52). -/

/-- Code of a normal end: `OK`; for `QRY` "possibly present". -/
def codeOk : Byte := 0x00#8

/-- Code `ABSENT`, the other normal end of `QRY`: "definitely absent". -/
def codeAbsent : Byte := 0x01#8

/-- The codes of the conditions (R52). -/
def Condition.code : Condition → Byte
  | .malformed => 0x02#8
  | .invalidParameters => 0x03#8
  | .shapeMismatch => 0x04#8
  | .notPresent => 0x05#8
  | .noFilter => 0x06#8
  | .unsupported => 0x07#8

/-- A response frame (R47). -/
def respFrame (code : Byte) (payload : List Byte) : List Byte :=
  [code, 0#8, 0#8, 0#8] ++ be 4 payload.length ++ payload

/-- Deliver one response frame. -/
def State.respond (s : State) (code : Byte) (payload : List Byte) : State :=
  { s with responses := s.responses ++ [respFrame code payload] }

/-- `respond(code, payload)` of R10: the command ends normally. -/
def State.finish (s : State) (code : Byte) (payload : List Byte) : Result := .next (s.respond code payload)

/-- `raise <Condition>` of R10, the one way a condition is taken (60 R146): the command ends at once, no register and
no cell changes, the response is `CODE 00 00 00 00 00 00 00`. Control goes nowhere, so there is no return (R150). -/
def State.raise (s : State) (c : Condition) : Result := .next (s.respond c.code [])

/-! The checks before a command (60 R161, R145, R149). -/

/-- `Implemented(opcode)` (R145). -/
def implemented (b : Build) : Opcode → Bool
  | .rem => b.variant == .counting
  | .uni => b.variant == .baseline
  | .int => b.variant == .baseline && b.hasIntersect
  | .cfg => true
  | .ins => true
  | .qry => true
  | .est => true
  | .idx => true
  | .dump => true
  | .load => true

/-- `NeedsFilter` (R161). -/
def needsFilter : Opcode → Bool
  | .cfg => false
  | .load => false
  | .ins => true
  | .qry => true
  | .rem => true
  | .est => true
  | .idx => true
  | .dump => true
  | .uni => true
  | .int => true

/-- `Unsupported` first, then `NoFilter`, then the command (R147 (2), (3)). -/
def State.checked (s : State) (op : Opcode) (body : Result) : Result :=
  if implemented s.build op = false then s.raise .unsupported
  else if (needsFilter op && !s.valid) = true then s.raise .noFilter
  else body

/-! Constructions and reset. -/

/-- `ParamsOK(m, k)` (40 R65). -/
def paramsOk (b : Build) (m : Word64) (k : Word32) : Bool :=
  decide (1 ≤ m.toNat) && decide (m.toNat ≤ b.mMax) && decide (1 ≤ k.toNat) && decide (k.toNat ≤ b.kMax)

/-- The writes of a successful construction (40 R66, 44 R130): every register and every cell. -/
def State.construct (s : State) (m : Word64) (k : Word32) (sa sb : Word64) (arr : Memory) : State :=
  { s with valid := true, m := m, k := k, sa := sa, sb := sb, arr := arr }

/-- The reset input (70 R165): `VALID <- 0`. Every other piece of architectural state is unspecified afterwards, so it
takes a free value (log 3). No response belongs to it. -/
def State.afterReset (s : State) : State :=
  { s with
    valid := false
    m := Config.unspecM s.freeCount
    k := Config.unspecK s.freeCount
    sa := Config.unspecSA s.freeCount
    sb := Config.unspecSB s.freeCount
    arr := Memory.ofCells (Config.unspecCells s.freeCount)
    freeCount := s.freeCount + 1 }

/-- A reset that cuts off a command (70 R166): the reset state, and a response that may be missing (log 4). -/
def State.afterCutOff (s : State) : State :=
  { s.afterReset with responses := s.responses ++ (Config.cutOffResponse s.freeCount).toList }

end Sys2Proof.Machine
end

