-- ==== Sys2Proof/Machine/Operands.lean ====
section
/-! DEFINITION. What the commands compute their operands with: the Hash Generator's positions (41_hash_index.md) and
the image (44_image.md). -/

namespace Sys2Proof.Machine

/-! Positions. -/

/-- `(h_a + i * h_b) mod M` over the unbounded naturals (41 R78, 92 D9). -/
def posOf (ha hb : Word64) (m i : Nat) : Nat := (ha.toNat + i * hb.toNat) % m

/-- `h_a = BaseHash(SA, key)` (R77). -/
def State.hashA (s : State) (key : List Byte) : Word64 := Config.baseHash s.sa key

/-- `h_b = BaseHash(SB, key)` (R77). -/
def State.hashB (s : State) (key : List Byte) : Word64 := Config.baseHash s.sb key

/-- `Pos(key, i)` (R78). -/
def State.pos (s : State) (key : List Byte) (i : Nat) : Nat := posOf (s.hashA key) (s.hashB key) s.m.toNat i

/-- `PosList(key)` (R83). -/
def State.posList (s : State) (key : List Byte) : List Nat := (List.range s.k.toNat).map (s.pos key)

/-- `mult(key, p)` (R83). -/
def State.mult (s : State) (key : List Byte) (p : Nat) : Nat := (s.posList key).count p

/-! Cells at a list of positions. -/

/-- `IsSet(p)` (42 R90). -/
def Memory.isSet (a : Memory) (p : Nat) : Bool := decide (0 < a.read p)

/-- `Bump(p)`: set the bit, or the saturating increment `Inc(p)` (42 R90, 43 R111). -/
def bump (b : Build) (a : Memory) (p : Nat) : Memory :=
  match b.variant with
  | .baseline => a.write p 1
  | .counting => a.write p (min (a.read p + 1) (cmax b))

/-- `Bump` at each position in order, once per occurrence (42 R91, 43 R113). -/
def bumpAll (b : Build) (a : Memory) (ps : List Nat) : Memory := ps.foldl (bump b) a

/-- `Dec(p)` (43 R112). -/
def dec (a : Memory) (p : Nat) : Memory := a.write p (a.read p - 1)

/-- `Dec` at each position in order, once per occurrence (43 R115). -/
def decAll (a : Memory) (ps : List Nat) : Memory := ps.foldl dec a

/-- Every targeted counter covers its multiplicity (43 R115). -/
def covers (a : Memory) (ps : List Nat) : Bool := ps.all (fun p => decide (ps.count p ≤ a.read p))

/-- Every position is set (42 R93). -/
def allSet (a : Memory) (ps : List Nat) : Bool := ps.all (Memory.isSet a)

/-! The image. -/

/-- The number with bit `i` equal to `f i` for `i < n`. -/
def ofBits : Nat → (Nat → Bool) → Nat
  | 0, _ => 0
  | n + 1, f => ofBits n f + (if f n then 2 ^ n else 0)

/-- The number of array bytes of an image of `m` cells: `ceil(m * CW / 8)` (44 R125). -/
def arrayLen (b : Build) (m : Nat) : Nat := (m * b.cw + 7) / 8

/-- Bit `j` of the string `S` (44 R126): bit `CW - 1 - (j mod CW)` of cell `j div CW`; 0 in the padding (R128). -/
def packBit (b : Build) (m : Nat) (a : Memory) (j : Nat) : Bool :=
  decide (j < m * b.cw) && (a.read (j / b.cw)).testBit (b.cw - 1 - j % b.cw)

/-- Array byte `j`: bit `8 j + t` of `S` at bit position `7 - t` (44 R126). -/
def packByte (b : Build) (m : Nat) (a : Memory) (j : Nat) : Byte :=
  BitVec.ofNat 8 (ofBits 8 (fun i => packBit b m a (8 * j + (7 - i))))

/-- `Pack(ARR[0 .. M-1])` (44 R126). -/
def pack (b : Build) (m : Nat) (a : Memory) : List Byte := (List.range (arrayLen b m)).map (packByte b m a)

/-- The image of the resident filter (44 R125, R129). -/
def State.image (s : State) : List Byte :=
  be 8 s.m.toNat ++ be 4 s.k.toNat ++ be 8 s.sa.toNat ++ be 8 s.sb.toNat ++ pack s.build s.m.toNat s.arr

/-- Image field `m`, bytes 0 to 7 (44 R125). -/
def imgM (image : List Byte) : Word64 := BitVec.ofNat 64 (fromBe (slice 0 8 image))

/-- Image field `k`, bytes 8 to 11. -/
def imgK (image : List Byte) : Word32 := BitVec.ofNat 32 (fromBe (slice 8 4 image))

/-- Image field `sa`, bytes 12 to 19. -/
def imgSA (image : List Byte) : Word64 := BitVec.ofNat 64 (fromBe (slice 12 8 image))

/-- Image field `sb`, bytes 20 to 27. -/
def imgSB (image : List Byte) : Word64 := BitVec.ofNat 64 (fromBe (slice 20 8 image))

/-- Bit `j` of `S` read back from the array part: bit `7 - (j mod 8)` of array byte `j div 8` (44 R126). -/
def imgBit (image : List Byte) (j : Nat) : Bool := (image.getD (28 + j / 8) 0#8).getLsbD (7 - j % 8)

/-- `ImgCell(image, p)`: the `CW`-bit number whose bit `CW - 1 - t` is bit `p * CW + t` of `S` (44 R127). -/
def imgCell (b : Build) (image : List Byte) (p : Nat) : Nat :=
  ofBits b.cw (fun i => imgBit image (p * b.cw + (b.cw - 1 - i)))

/-- The image is as long as its `m` says (44 R130, 42 R99 (3)). -/
def imgLenOk (b : Build) (m : Nat) (image : List Byte) : Bool := decide (image.length = 28 + arrayLen b m)

/-- Every padding bit of the last array byte is 0 (44 R128). -/
def imgPaddingOk (b : Build) (m : Nat) (image : List Byte) : Bool :=
  (List.range (8 * arrayLen b m - m * b.cw)).all (fun j => !imgBit image (m * b.cw + j))

/-- The image's header equals `(M, K, SA, SB)` (42 R99). -/
def State.sameShape (s : State) (image : List Byte) : Bool :=
  decide (imgM image = s.m) && decide (imgK image = s.k) && decide (imgSA image = s.sa) && decide (imgSB image = s.sb)

/-- `CheckOperand(image)` of `UNI` and `INT`, in the order of 42 R99: the condition it raises, or none. -/
def State.checkOperand (s : State) (image : List Byte) : Option Condition :=
  if s.sameShape image = false then some .shapeMismatch
  else if imgLenOk s.build s.m.toNat image = false then some .malformed
  else if imgPaddingOk s.build s.m.toNat image = false then some .malformed
  else none

/-- The checks of `LOAD`, in the order of 44 R130: the condition it raises, or none. -/
def checkLoad (b : Build) (image : List Byte) : Option Condition :=
  if paramsOk b (imgM image) (imgK image) = false then some .invalidParameters
  else if imgLenOk b (imgM image).toNat image = false then some .malformed
  else if imgPaddingOk b (imgM image).toNat image = false then some .malformed
  else none

/-- The cell array that an image holds (44 R127, R130). -/
def imgCells (b : Build) (image : List Byte) : Memory := Memory.ofFn (imgM image).toNat (imgCell b image)

end Sys2Proof.Machine
end

