-- ==== Sys2Proof/Machine/Construct.lean ====
section
/-! DEFINITION. `CFG`, construction from explicit parameters (40_construct.md). -/

namespace Sys2Proof.Machine

/-- `CFG m, k, sa, sb` (40 R66). Every cell `p < m` becomes 0, so nothing stays listed. -/
def execCfg (m : Word64) (k : Word32) (sa sb : Word64) (s : State) : Result :=
  s.checked .cfg
    (if paramsOk s.build m k then (s.construct m k sa sb []).finish codeOk [] else s.raise .invalidParameters)

end Sys2Proof.Machine
end

