-- ==== Sys2Proof/Machine/Counting.lean ====
section
/-! DEFINITION. The Counting Layer's command `REM` (43_counting.md). -/

namespace Sys2Proof.Machine

/-- `REM key` (43 R115): all decrements or none (90 C2). -/
def execRem (key : List Byte) (s : State) : Result :=
  s.checked .rem
    (if covers s.arr (s.posList key) then
      ({ s with arr := decAll s.arr (s.posList key) } : State).finish codeOk []
    else s.raise .notPresent)

end Sys2Proof.Machine
end

