-- ==== Sys2Proof/Machine/Flags.lean ====
section
/-! DEFINITION. The derived status of 10_state.md R15 and the statistics of 42_filter_core.md R96 to R98. The block
stores no flag. -/

namespace Sys2Proof.Machine

/-- `ones`: the number of `p` in `[0, M)` with `IsSet(p)` (42 R96; counters greater than 0 in a counting build, 43 R117). -/
def State.ones (s : State) : Nat := (List.range s.m.toNat).countP (Memory.isSet s.arr)

/-- `Empty` (R15). -/
def State.isEmpty (s : State) : Bool := s.valid && s.ones == 0

/-- `Populated` (R15). -/
def State.isPopulated (s : State) : Bool := s.valid && decide (0 < s.ones)

/-- `Saturated` (R15). -/
def State.isSaturated (s : State) : Bool := s.valid && s.ones == s.m.toNat

/-- The binary64 pattern of +0.0 (R98 (b)). -/
def f64Zero : Word64 := 0x0000000000000000#64

/-- The binary64 pattern of 1.0 (R98 (c)). -/
def f64One : Word64 := 0x3FF0000000000000#64

/-- The binary64 pattern of +infinity (R98 (c)). -/
def f64Inf : Word64 := 0x7FF0000000000000#64

/-- The pattern is a finite, non-negative, non-NaN binary64 value (R98 (d)): the sign bit is 0 and the exponent field
is not all ones, or the value is -0.0, which is not below zero (log 9). -/
def f64FiniteNonneg (x : Word64) : Bool := decide (x.toNat < f64Inf.toNat) || decide (x = 0x8000000000000000#64)

/-- Any pattern that R98 (d) allows, out of an arbitrary one: every allowed pattern is left as it is. -/
def f64Constrain (x : Word64) : Word64 := if f64FiniteNonneg x then x else f64Zero

/-- `NumCard(M, K, ones)` (R98; log 9). -/
def numCard (m k ones : Nat) : Word64 :=
  if ones = 0 then f64Zero else if ones = m then f64Inf else f64Constrain (Config.cardRaw m k ones)

/-- `NumFpr(M, K, ones)` (R98; log 9). -/
def numFpr (m k ones : Nat) : Word64 :=
  if ones = 0 then f64Zero else if ones = m then f64One else f64Constrain (Config.fprRaw m k ones)

/-- The payload of `EST` (30 R51, 42 R96). -/
def State.estPayload (s : State) : List Byte :=
  be 8 s.ones ++ be 8 (numCard s.m.toNat s.k.toNat s.ones).toNat ++ be 8 (numFpr s.m.toNat s.k.toNat s.ones).toNat

end Sys2Proof.Machine
end

