-- ==== Sys2Proof/Machine/FilterCore.lean ====
section
/-! DEFINITION. The Filter Core: `INS`, `QRY`, `EST`, `UNI`, `INT` (42_filter_core.md; 43_counting.md for counting
builds). -/

namespace Sys2Proof.Machine

/-- `INS key` (42 R91, 43 R113). -/
def execIns (key : List Byte) (s : State) : Result :=
  s.checked .ins (({ s with arr := bumpAll s.build s.arr (s.posList key) } : State).finish codeOk [])

/-- `QRY key` (42 R93, 43 R114). Whether the loop stops at the first clear cell is not observable (92 D29). -/
def execQry (key : List Byte) (s : State) : Result :=
  s.checked .qry (s.finish (if allSet s.arr (s.posList key) then codeOk else codeAbsent) [])

/-- `EST` (42 R96). -/
def execEst (s : State) : Result := s.checked .est (s.finish codeOk s.estPayload)

/-- `UNI image` (42 R100). -/
def execUni (image : List Byte) (s : State) : Result :=
  s.checked .uni
    (match s.checkOperand image with
    | some c => s.raise c
    | none =>
      ({ s with arr := Memory.ofFn s.m.toNat (fun p => s.arr.read p ||| imgCell s.build image p) } : State).finish
        codeOk [])

/-- `INT image` (42 R101; the AND is normative, 90 C4). -/
def execInt (image : List Byte) (s : State) : Result :=
  s.checked .int
    (match s.checkOperand image with
    | some c => s.raise c
    | none =>
      ({ s with arr := Memory.ofFn s.m.toNat (fun p => s.arr.read p &&& imgCell s.build image p) } : State).finish
        codeOk [])

end Sys2Proof.Machine
end

