-- ==== Sys2Proof/Machine/HashIndex.lean ====
section
/-! DEFINITION. `IDX`, the Hash Generator made observable (41_hash_index.md). -/

namespace Sys2Proof.Machine

/-- `IDX i, key` (41 R82). -/
def execIdx (i : Word32) (key : List Byte) (s : State) : Result :=
  s.checked .idx
    (if i.toNat < s.k.toNat then s.finish codeOk (be 8 (s.pos key i.toNat)) else s.raise .malformed)

end Sys2Proof.Machine
end

