-- ==== Sys2Proof/Machine/Image.lean ====
section
/-! DEFINITION. `DUMP` and `LOAD` (44_image.md). -/

namespace Sys2Proof.Machine

/-- `DUMP` (44 R129). -/
def execDump (s : State) : Result := s.checked .dump (s.finish codeOk s.image)

/-- `LOAD image` (44 R130). -/
def execLoad (image : List Byte) (s : State) : Result :=
  s.checked .load
    (match checkLoad s.build image with
    | some c => s.raise c
    | none =>
      (s.construct (imgM image) (imgK image) (imgSA image) (imgSB image) (imgCells s.build image)).finish codeOk [])

end Sys2Proof.Machine
end

