-- ==== Sys2Proof/Machine/Dispatch.lean ====
section
/-! DEFINITION. One arm per command (30_encoding.md R49). -/

namespace Sys2Proof.Machine

/-- Execute one decoded command. -/
def exec (i : Instr) (s : State) : Host.Outcome State Fault Refusal :=
  match i with
  | .cfg m k sa sb => Sys2Proof.Machine.execCfg m k sa sb s
  | .ins key => Sys2Proof.Machine.execIns key s
  | .qry key => Sys2Proof.Machine.execQry key s
  | .rem key => Sys2Proof.Machine.execRem key s
  | .est => Sys2Proof.Machine.execEst s
  | .idx n key => Sys2Proof.Machine.execIdx n key s
  | .dump => Sys2Proof.Machine.execDump s
  | .load image => Sys2Proof.Machine.execLoad image s
  | .uni image => Sys2Proof.Machine.execUni image s
  | .int image => Sys2Proof.Machine.execInt image s

end Sys2Proof.Machine
end

