-- ==== Sys2Proof/Machine/Step.lean ====
section
/-! DEFINITION. The step function (60_exceptions.md R161) with the inputs of a run (70_reset_and_hazards.md R172). -/

namespace Sys2Proof.Machine

/-- `Step(s, f)` of R161: decode the frame and run its command; a frame that is no command answers `Malformed`. -/
def runFrame (f : List Byte) (s : State) : Result :=
  match decode s.build f with
  | .error _ => s.raise .malformed
  | .ok i => exec i s

/-- One step: the oldest input is taken and acted on. With no input nothing happens (60 R152; log 7). -/
def step (s : State) : Host.Outcome State Fault Refusal :=
  match s.inputs with
  | [] => .next s
  | .frame f :: rest => runFrame f { s with inputs := rest }
  | .reset :: rest => .next ({ s with inputs := rest } : State).afterReset
  | .cutOff _ :: rest => .next ({ s with inputs := rest } : State).afterCutOff

/-- `s` with the frame of a row of spec/opcode_table.json as the next input (log 12). -/
def State.withFetchWord (s : State) (nbits w : Nat) : State :=
  { s with inputs := .frame (tableFrame nbits w) :: s.inputs }

end Sys2Proof.Machine
end

