-- ==== Sys2Proof/Machine/Assembler.lean ====
section
/-! DEFINITION. The assembler notation of 30_encoding.md R56 and R57, one line at a time. Host software, not normative
for the hardware (92 D28): the step uses none of it. `CREATE` stands in `Machine/Sizing.lean`, since its operand `p`
is a real number. -/

namespace Sys2Proof.Machine

/-- What a line of assembler is. -/
inductive AsmLine where
  /-- Blanks and a comment only. -/
  | blank
  /-- One command. -/
  | command (i : Instr)
  /-- Not the notation of R56. -/
  | error
deriving DecidableEq, Repr

/-- Spaces and tabs separate (log 15). -/
def asmSpace (c : Char) : Bool := c == ' ' || c == '\t'

/-- The line without blanks at either end. -/
def asmTrim (cs : List Char) : List Char := ((cs.dropWhile asmSpace).reverse.dropWhile asmSpace).reverse

/-- A comment runs from `;` to the end of the line (R56); inside a text key `;` is part of the key (log 15). -/
def asmNoComment : Bool → List Char → List Char
  | _, [] => []
  | q, c :: cs => if c == ';' && !q then [] else c :: asmNoComment (if c == '"' then !q else q) cs

/-- Operands are separated by commas (R56), outside text keys. -/
def asmSplit : Bool → List Char → List (List Char)
  | _, [] => [[]]
  | q, c :: cs =>
    if c == ',' && !q then [] :: asmSplit q cs
    else match asmSplit (if c == '"' then !q else q) cs with
      | [] => [[c]]
      | w :: ws => (c :: w) :: ws

/-- A digit of either base. -/
def asmDigit (base : Nat) (c : Char) : Option Nat :=
  let n := c.toNat
  let d := if 48 ≤ n && n ≤ 57 then n - 48 else if 97 ≤ n && n ≤ 102 then n - 87
    else if 65 ≤ n && n ≤ 70 then n - 55 else base
  if d < base then some d else none

/-- Digits, most significant first, after those already read. -/
def asmDigits (base : Nat) : Nat → List Char → Option Nat
  | acc, [] => some acc
  | acc, c :: cs =>
    match asmDigit base c with
    | some d => asmDigits base (acc * base + d) cs
    | none => none

/-- "Integers are decimal or `0x` hexadecimal" (R56). -/
def asmInt : List Char → Option Nat
  | [] => none
  | '0' :: 'x' :: c :: cs => asmDigits 16 0 (c :: cs)
  | c :: cs => asmDigits 10 0 (c :: cs)

/-- The bytes given in hexadecimal, up to the closing quote. -/
def asmHex : List Char → Option (List Byte)
  | ['"'] => some []
  | a :: b :: cs =>
    match asmDigit 16 a, asmDigit 16 b, asmHex cs with
    | some x, some y, some r => some (BitVec.ofNat 8 (x * 16 + y) :: r)
    | _, _, _ => none
  | _ => none

/-- The bytes of an ASCII text, up to the closing quote. -/
def asmText : List Char → Option (List Byte)
  | [] => none
  | '"' :: cs => if cs.isEmpty then some [] else none
  | c :: cs =>
    match asmText cs with
    | some r => if c.toNat < 128 then some (BitVec.ofNat 8 c.toNat :: r) else none
    | none => none

/-- A byte sequence `x"0203"` (R56): every image, and a key. -/
def asmImage : List Char → Option (List Byte)
  | 'x' :: '"' :: cs => asmHex cs
  | _ => none

/-- A key: `"text"` or `x"0203"` (R56). -/
def asmKey : List Char → Option (List Byte)
  | '"' :: cs => asmText cs
  | cs => asmImage cs

/-- The command of a mnemonic and its operands (R56). An integer that does not fit its field (`m`, `sa`, `sb` of 64 bits,
`k`, `i` of 32) makes the line an error: R56 is silent, DESIGN CHOICE (log 15). -/
def asmCommand (mn : List Char) (ops : List (List Char)) : Option Instr :=
  match mn, ops with
  | ['C', 'F', 'G'], [m, k, sa, sb] =>
    match asmInt m, asmInt k, asmInt sa, asmInt sb with
    | some m, some k, some sa, some sb =>
      if m < 2 ^ 64 ∧ k < 2 ^ 32 ∧ sa < 2 ^ 64 ∧ sb < 2 ^ 64 then
        some (.cfg (BitVec.ofNat 64 m) (BitVec.ofNat 32 k) (BitVec.ofNat 64 sa) (BitVec.ofNat 64 sb))
      else none
    | _, _, _, _ => none
  | ['I', 'N', 'S'], [key] => (asmKey key).map .ins
  | ['Q', 'R', 'Y'], [key] => (asmKey key).map .qry
  | ['R', 'E', 'M'], [key] => (asmKey key).map .rem
  | ['E', 'S', 'T'], [] => some .est
  | ['I', 'D', 'X'], [i, key] =>
    match asmInt i, asmKey key with
    | some i, some key => if i < 2 ^ 32 then some (.idx (BitVec.ofNat 32 i) key) else none
    | _, _ => none
  | ['D', 'U', 'M', 'P'], [] => some .dump
  | ['L', 'O', 'A', 'D'], [image] => (asmImage image).map .load
  | ['U', 'N', 'I'], [image] => (asmImage image).map .uni
  | ['I', 'N', 'T'], [image] => (asmImage image).map .int
  | _, _ => none

/-- One line of assembler (R56): its command, which `encode` turns into the frame (R57). -/
def asmLine (cs : List Char) : AsmLine :=
  match asmTrim (asmNoComment false cs) with
  | [] => .blank
  | c :: rest =>
    let mn := (c :: rest).takeWhile (fun x => !asmSpace x)
    let tail := asmTrim ((c :: rest).dropWhile (fun x => !asmSpace x))
    match asmCommand mn (if tail.isEmpty then [] else (asmSplit false tail).map asmTrim) with
    | some i => .command i
    | none => .error

end Sys2Proof.Machine
end

