-- ==== Sys2Proof/Machine/Sizing.lean ====
section
/-! DEFINITION. The real-valued formulas of the spec, as relations: the ideal statistics (42_filter_core.md R97) and
the host-side sizing with the pseudo-instruction `CREATE` (40_construct.md R68, 30_encoding.md R58). The step uses
none of them: the block sees integers only (92 D32). -/

namespace Sys2Proof.Machine

/-- `x` is the ideal cardinality estimate `-(M/K) * ln(1 - ones/M)` (R97), which the spec defines for `ones < M` only.
At `ones = M` the relation holds of 0, by Lean's `log 0 = 0`: DESIGN CHOICE (log 19). What `EST` answers there is R98's
infinity, in `numCard`. -/
def IsIdealCard (m k ones : ℕ) (x : ℝ) : Prop := x = -((m : ℝ) / k) * Real.log (1 - (ones : ℝ) / m)

/-- `y` is the ideal false-positive estimate `(1 - e^(-K * n / M))^K` for `n` insertions (R97). -/
def IsFprOf (m k : ℕ) (n y : ℝ) : Prop := y = (1 - Real.exp (-(k : ℝ) * n / m)) ^ k

/-- `m = ceil(-(n * ln p) / (ln 2)^2)` (R68). -/
def IsSizeM (n : ℕ) (p : ℝ) (m : ℕ) : Prop := m = ⌈-((n : ℝ) * Real.log p) / Real.log 2 ^ 2⌉₊

/-- `k = max(1, round((m / n) * ln 2))`, with the rounded-up `m` (R68). -/
def IsSizeK (n m k : ℕ) : Prop := k = max 1 (round ((m : ℝ) / n * Real.log 2)).toNat

/-- `CREATE n, p, sa, sb` gives `r` on the host (R58): the `CFG` to send, or the document's `InvalidParameters`.
Sizes that do not fit the fields of `CFG` send nothing either (log 16). -/
def Creates (n : ℤ) (p : ℝ) (sa sb : Word64) (r : Except Condition Instr) : Prop :=
  (¬ (0 < n ∧ 0 < p ∧ p < 1) ∧ r = .error .invalidParameters) ∨
  ((0 < n ∧ 0 < p ∧ p < 1) ∧ ∃ m k, IsSizeM n.toNat p m ∧ IsSizeK n.toNat m k ∧
    r = if m < 2 ^ 64 ∧ k < 2 ^ 32 then .ok (.cfg (BitVec.ofNat 64 m) (BitVec.ofNat 32 k) sa sb)
      else .error .invalidParameters)

end Sys2Proof.Machine
end

