-- ==== Sys2Proof/Safety.lean ====
section
/-! DEFINITION. The invariant of 10_state.md R17, runs (70_reset_and_hazards.md R172), and the notions that claims
about runs use. -/

namespace Sys2Proof.Machine

/-- R17 (a), (b) and the canonical form of the array, in a block whose build parameters are legal (R6). -/
def State.inv (s : State) : Bool :=
  s.build.ok && s.arr.wf &&
  (!s.valid || (paramsOk s.build s.m s.k && s.arr.within s.m.toNat (cmax s.build)))

/-- The state after `n` steps. -/
def runSteps : Nat → State → Result
  | 0, s => .next s
  | n + 1, s =>
    match step s with
    | .next t => runSteps n t
    | .fault r => .fault r
    | .refused r => .refused r

/-- A run is safe when every step of it answers a next state. -/
def SafeFor (n : Nat) (s : State) : Prop := ∃ t, runSteps n s = .next t

/-- A response frame without payload: its code and seven zero bytes (30 R47, 60 R146). -/
def bare (code : Byte) : List Byte := [code, 0#8, 0#8, 0#8, 0#8, 0#8, 0#8, 0#8]

/-- The state with one response frame delivered and nothing else changed. -/
def State.answered (s : State) (r : List Byte) : State := { s with responses := s.responses ++ [r] }

/-- The response frame delivered last. -/
def State.lastResponse (t : State) : Option (List Byte) := t.responses.getLast?

/-- The last command ended with a condition (60 R146). -/
def EndedWithCondition (t : State) : Prop := ∃ c : Condition, t.lastResponse = some (respFrame c.code [])

/-- The commands of 42 R102 that never clear a cell of a baseline filter. -/
def keepsBits : Instr → Bool
  | .ins _ => true
  | .qry _ => true
  | .est => true
  | .idx _ _ => true
  | .dump => true
  | .uni _ => true
  | .cfg _ _ _ _ => false
  | .rem _ => false
  | .load _ => false
  | .int _ => false

/-- One step that executes a command of `keepsBits`, or one that ends with a condition (42 R102). -/
def CalmStep (s t : State) : Prop :=
  step s = .next t ∧ ∃ f rest, s.inputs = .frame f :: rest ∧
    ((∃ i, decode s.build f = .ok i ∧ keepsBits i = true) ∨ EndedWithCondition t)

/-- One command that changes nothing but the responses. -/
def SilentExec (s t : State) : Prop := ∃ i, exec i s = .next t ∧ t = { s with responses := t.responses }

/-- The table of 60 R148: the codes a command can end with in a build. -/
def endCodes (b : Build) : Instr → List Nat
  | .cfg _ _ _ _ => [0, 3]
  | .ins _ => [0, 6]
  | .qry _ => [0, 1, 6]
  | .rem _ => if b.variant = .counting then [0, 5, 6] else [7]
  | .est => [0, 6]
  | .idx _ _ => [0, 2, 6]
  | .dump => [0, 6]
  | .load _ => [0, 2, 3]
  | .uni _ => if b.variant = .baseline then [0, 2, 4, 6] else [7]
  | .int _ => if b.variant = .baseline ∧ b.hasIntersect = true then [0, 2, 4, 6] else [7]

/-- The states differ at most in what `VALID = 0` makes unobservable: `M`, `K`, `SA`, `SB` and the cells (R22, R23). -/
def SameButHidden (s t : State) : Prop :=
  s.valid = false ∧ t = { s with m := t.m, k := t.k, sa := t.sa, sb := t.sb, arr := t.arr }

end Sys2Proof.Machine
end

