-- ==== Sys2Proof/Certificates/Slice0/Obligations.lean ====
section
/-! DEFINITION. The statements for the provers, one per Prop. Each docstring names the rule of spec/ it comes from. -/

open Sys2Proof Sys2Proof.Machine

/-! Encoding (30_encoding.md). -/

/-- Every well-formed command of every legal build is read back from its frame, with every operand (R53, R57). -/
def Obligations.DecodeOfEncodeIsTheCommand : Prop :=
  ∀ (b : Build) (i : Instr), b.ok = true → i.wf b = true → decode b (encode i) = .ok i

/-- A frame that decodes is the one encoding of its command, and the command is well formed (R49, R53, R54). -/
def Obligations.DecodedFrameIsItsEncoding : Prop :=
  ∀ (b : Build) (f : List Byte) (i : Instr), decode b f = .ok i → encode i = f ∧ i.wf b = true

/-- Frames written out from the tables of R46, R49 and R50 decode to the command they stand for. -/
def Obligations.WrittenOutFramesDecode : Prop :=
  decode Build.default [0x01#8, 0x00#8, 0x00#8, 0x00#8, 0x00#8, 0x00#8, 0x00#8, 0x1C#8,
      0x00#8, 0x00#8, 0x00#8, 0x00#8, 0x00#8, 0x00#8, 0x00#8, 0x0A#8, 0x00#8, 0x00#8, 0x00#8, 0x03#8,
      0x00#8, 0x00#8, 0x00#8, 0x00#8, 0x00#8, 0x00#8, 0x00#8, 0x00#8,
      0x00#8, 0x00#8, 0x00#8, 0x00#8, 0x00#8, 0x00#8, 0x00#8, 0x01#8] = .ok (.cfg 10#64 3#32 0#64 1#64) ∧
  decode Build.default [0x02#8, 0x00#8, 0x00#8, 0x00#8, 0x00#8, 0x00#8, 0x00#8, 0x02#8, 0x02#8, 0x03#8] =
    .ok (.ins [0x02#8, 0x03#8]) ∧
  decode Build.default [0x05#8, 0x00#8, 0x00#8, 0x00#8, 0x00#8, 0x00#8, 0x00#8, 0x00#8] = .ok .est ∧
  decode Build.default [0x06#8, 0x00#8, 0x00#8, 0x00#8, 0x00#8, 0x00#8, 0x00#8, 0x06#8,
      0x00#8, 0x00#8, 0x00#8, 0x02#8, 0x01#8, 0x04#8] = .ok (.idx 2#32 [0x01#8, 0x04#8])

/-- R54: a reserved opcode, a reserved byte that is not zero, a `LEN` (bytes 4 to 7 of the frame, R46) not allowed for
the opcode (R49), or a frame of zeros does not decode; it changes no state and answers `Malformed`. -/
def Obligations.ReservedFramesAreMalformed : Prop :=
  ∀ (s : State) (f : List Byte) (rest : List Input), s.inputs = .frame f :: rest →
    ((∃ o, f.head? = some o ∧ (o = 0x00#8 ∨ 0x0B ≤ o.toNat)) ∨
      (∃ x ∈ (f.drop 1).take 3, x ≠ 0#8) ∨
      (∃ o op, f.head? = some o ∧ Opcode.ofByte o = some op ∧
        lenAllowed s.build op (fromBe ((f.drop 4).take 4)) = false) ∨
      (∀ x ∈ f, x = 0#8)) →
    (∃ e, decode s.build f = .error e) ∧
      step s = .next (({ s with inputs := rest } : State).answered (bare 0x02#8))

/-- R57: a command is assembled to `OPC ++ 00 00 00 ++ be_32(LEN) ++ PAYLOAD`, and the rule's two example lines (the
spec derives R57 from R46 and R50; the reading of a line is log 15). -/
def Obligations.AssemblyOfALine : Prop :=
  (∀ i : Instr, encode i =
    i.opcode.code :: 0#8 :: 0#8 :: 0#8 :: (be 4 i.payload.length ++ i.payload)) ∧
  (∃ i, asmLine ['I', 'N', 'S', ' ', 'x', '"', '0', '2', '0', '3', '"'] = .command i ∧
    encode i = [0x02#8, 0x00#8, 0x00#8, 0x00#8, 0x00#8, 0x00#8, 0x00#8, 0x02#8, 0x02#8, 0x03#8]) ∧
  (∃ i, asmLine ['C', 'F', 'G', ' ', '1', '0', ',', ' ', '3', ',', ' ', '0', ',', ' ', '1'] = .command i ∧
    encode i = [0x01#8, 0x00#8, 0x00#8, 0x00#8, 0x00#8, 0x00#8, 0x00#8, 0x1C#8,
      0x00#8, 0x00#8, 0x00#8, 0x00#8, 0x00#8, 0x00#8, 0x00#8, 0x0A#8, 0x00#8, 0x00#8, 0x00#8, 0x03#8,
      0x00#8, 0x00#8, 0x00#8, 0x00#8, 0x00#8, 0x00#8, 0x00#8, 0x00#8,
      0x00#8, 0x00#8, 0x00#8, 0x00#8, 0x00#8, 0x00#8, 0x00#8, 0x01#8])

/-! The step (60_exceptions.md, 70_reset_and_hazards.md). -/

/-- R161: when the next input is a frame that decodes to `i`, the step is `exec i` with that input taken. -/
def Obligations.StepRunsTheDecodedCommand : Prop :=
  ∀ (s : State) (f : List Byte) (rest : List Input) (i : Instr), s.inputs = .frame f :: rest →
    decode s.build f = .ok i → step s = exec i { s with inputs := rest }

/-- R161: the step always returns. No state faults or is refused. -/
def Obligations.EveryStepAnswersNext : Prop := ∀ s : State, ∃ t, step s = .next t

/-- R45, R47, R52: a command frame gets exactly one response frame, after those before it: a code of the table, three
zero bytes, `be_32(RLEN)` and `RLEN` bytes; a condition's response has `RLEN = 0`. -/
def Obligations.OneResponsePerCommandFrame : Prop :=
  ∀ (s t : State) (f : List Byte) (rest : List Input), s.inv = true → s.inputs = .frame f :: rest →
    step s = .next t →
    t.inputs = rest ∧ ∃ (code : Byte) (payload : List Byte),
      t.responses = s.responses ++ [code :: 0#8 :: 0#8 :: 0#8 :: (be 4 payload.length ++ payload)] ∧
      fromBe (be 4 payload.length) = payload.length ∧ code.toNat ≤ 7 ∧ (2 ≤ code.toNat → payload = [])

/-- R17 (a), (b) and the canonical form of the array: kept by every step, whatever the input. -/
def Obligations.StepKeepsTheInvariant : Prop :=
  ∀ s t : State, s.inv = true → step s = .next t → t.inv = true

/-- The invariant holds right after reset, for which R22 states `VALID = 0`; so it does in the default counting build. -/
def Obligations.ResetMeetsTheInvariant : Prop :=
  State.reset.inv = true ∧ State.reset.valid = false ∧
    ({ State.reset with build := Build.counting4 } : State).inv = true

/-- R6, R39: no step writes the build parameters; the inputs are taken in order; no response is taken back. -/
def Obligations.StepTakesInputsInOrder : Prop :=
  ∀ s t : State, step s = .next t →
    t.build = s.build ∧ t.inputs = s.inputs.tail ∧ ∃ new, t.responses = s.responses ++ new ∧ new.length ≤ 1

/-- R146: a command that ends with a condition changes no register and no cell; its response is
`CODE 00 00 00 00 00 00 00`. -/
def Obligations.ConditionsLeaveNoTrace : Prop :=
  ∀ (i : Instr) (s t : State), exec i s = .next t → EndedWithCondition t →
    ∃ code : Byte, 2 ≤ code.toNat ∧ code.toNat ≤ 7 ∧ t = s.answered (bare code)

/-- R147: which condition is reported when several apply. -/
def Obligations.ConditionPriority : Prop :=
  (∀ (s : State) (f : List Byte) (rest : List Input) (e : DecodeError), s.inputs = .frame f :: rest →
    decode s.build f = .error e → step s = .next (({ s with inputs := rest } : State).answered (bare 0x02#8))) ∧
  (∀ (s : State) (i : Instr), implemented s.build i.opcode = false → exec i s = .next (s.answered (bare 0x07#8))) ∧
  (∀ (s : State) (i : Instr), implemented s.build i.opcode = true → needsFilter i.opcode = true → s.valid = false →
    exec i s = .next (s.answered (bare 0x06#8))) ∧
  (∀ (s : State) (m : Word64) (k : Word32) (sa sb : Word64), paramsOk s.build m k = false →
    exec (.cfg m k sa sb) s = .next (s.answered (bare 0x03#8))) ∧
  (∀ (s : State) (image : List Byte), paramsOk s.build (imgM image) (imgK image) = false →
    exec (.load image) s = .next (s.answered (bare 0x03#8))) ∧
  (∀ (s : State) (image : List Byte), paramsOk s.build (imgM image) (imgK image) = true →
    (imgLenOk s.build (imgM image).toNat image = false ∨ imgPaddingOk s.build (imgM image).toNat image = false) →
    exec (.load image) s = .next (s.answered (bare 0x02#8))) ∧
  (∀ (s : State) (image : List Byte) (i : Instr), (i = .uni image ∨ i = .int image) →
    implemented s.build i.opcode = true → s.valid = true →
    (¬ (imgM image = s.m ∧ imgK image = s.k ∧ imgSA image = s.sa ∧ imgSB image = s.sb) →
      exec i s = .next (s.answered (bare 0x04#8))) ∧
    (imgM image = s.m ∧ imgK image = s.k ∧ imgSA image = s.sa ∧ imgSB image = s.sb →
      (imgLenOk s.build s.m.toNat image = false ∨ imgPaddingOk s.build s.m.toNat image = false) →
      exec i s = .next (s.answered (bare 0x02#8)))) ∧
  (∀ (s : State) (i : Word32) (key : List Byte), s.valid = true → s.k.toNat ≤ i.toNat →
    exec (.idx i key) s = .next (s.answered (bare 0x02#8))) ∧
  (∀ (s : State) (key : List Byte), s.build.variant = .counting → s.valid = true →
    (∃ p, s.arr.read p < s.mult key p) → exec (.rem key) s = .next (s.answered (bare 0x05#8)))

/-- R148: no command ends with a code the table gives it no entry for (the spec derives the table). -/
def Obligations.CommandsEndOnlyWithTheirCodes : Prop :=
  ∀ (i : Instr) (s t : State), exec i s = .next t →
    ∃ (code : Byte) (payload : List Byte), t.responses = s.responses ++ [respFrame code payload] ∧
      code.toNat ∈ endCodes s.build i

/-- R149: eight commands raise `NoFilter` when `VALID = 0`; `CFG` and `LOAD` never do. -/
def Obligations.NoFilterBeforeConstruction : Prop :=
  (∀ (s : State) (i : Instr), s.valid = false → implemented s.build i.opcode = true →
    (∀ m k sa sb, i ≠ .cfg m k sa sb) → (∀ image, i ≠ .load image) →
    exec i s = .next (s.answered (bare 0x06#8))) ∧
  (∀ (s t : State) (i : Instr), ((∃ m k sa sb, i = .cfg m k sa sb) ∨ ∃ image, i = .load image) →
    exec i s = .next t → t.lastResponse ≠ some (bare 0x06#8))

/-- R145: `REM` in a baseline build, `UNI` in a counting build, `INT` in a counting build or without `HAS_INTERSECT`
answer `Unsupported`, in every state; no other command does, and these in no other build. -/
def Obligations.UnsupportedCommands : Prop :=
  ∀ (s t : State) (i : Instr), exec i s = .next t →
    (t.lastResponse = some (bare 0x07#8) ↔
      (∃ key, i = .rem key ∧ s.build.variant = .baseline) ∨
      (∃ image, i = .uni image ∧ s.build.variant = .counting) ∨
      (∃ image, i = .int image ∧ (s.build.variant = .counting ∨ s.build.hasIntersect = false)))

/-- R165, R166: a reset input, between commands or cutting one off, leaves `VALID = 0`; between commands it delivers
no response. What a cut-off command answers is left free (log 4). -/
def Obligations.ResetInputDestroysTheFilter : Prop :=
  (∀ (s : State) (rest : List Input), s.inputs = .reset :: rest →
    ∃ t, step s = .next t ∧ t.valid = false ∧ t.inputs = rest ∧ t.responses = s.responses ∧ t.build = s.build) ∧
  (∀ (s : State) (f : List Byte) (rest : List Input), s.inputs = .cutOff f :: rest →
    ∃ t, step s = .next t ∧ t.valid = false ∧ t.inputs = rest ∧ t.build = s.build)

/-- R22, R23: what `M`, `K`, `SA`, `SB` and the cells hold while `VALID = 0` can never influence a response, in any
run of any length, whatever the inputs. -/
def Obligations.HiddenRegistersNeverShow : Prop :=
  ∀ (n : Nat) (s t s' : State), SameButHidden s t → runSteps n s = .next s' →
    ∃ t', runSteps n t = .next t' ∧ t'.responses = s'.responses ∧ (t' = s' ∨ SameButHidden s' t')

/-! Construction (40_construct.md). -/

/-- R65, R66: with `1 <= m <= M_MAX` and `1 <= k <= K_MAX`, `CFG` writes every register, makes every cell 0, and the
filter is `Empty`, whether or not there was a filter before. -/
def Obligations.CfgConstructsAnEmptyFilter : Prop :=
  ∀ (s : State) (m : Word64) (k : Word32) (sa sb : Word64),
    1 ≤ m.toNat → m.toNat ≤ s.build.mMax → 1 ≤ k.toNat → k.toNat ≤ s.build.kMax →
    ∃ a : Memory,
      exec (.cfg m k sa sb) s =
        .next (({ s with valid := true, m := m, k := k, sa := sa, sb := sb, arr := a } : State).answered (bare 0x00#8)) ∧
      (∀ p, a.read p = 0) ∧
      ({ s with valid := true, m := m, k := k, sa := sa, sb := sb, arr := a } : State).isEmpty = true

/-- R65, R66 (d): otherwise `CFG` answers `InvalidParameters` and a filter that was there is kept. -/
def Obligations.CfgRefusesBadParameters : Prop :=
  ∀ (s : State) (m : Word64) (k : Word32) (sa sb : Word64),
    (m.toNat = 0 ∨ s.build.mMax < m.toNat ∨ k.toNat = 0 ∨ s.build.kMax < k.toNat) →
    exec (.cfg m k sa sb) s = .next (s.answered (bare 0x03#8))

/-- R67: no command but a successful `CFG` or `LOAD` writes `M`, `K`, `SA` or `SB`. -/
def Obligations.ParametersChangeOnlyByConstruction : Prop :=
  ∀ (i : Instr) (s t : State), exec i s = .next t →
    (t.m = s.m ∧ t.k = s.k ∧ t.sa = s.sa ∧ t.sb = s.sb) ∨
    (((∃ m k sa sb, i = .cfg m k sa sb) ∨ ∃ image, i = .load image) ∧ t.lastResponse = some (bare 0x00#8))

/-- R58, R68, R69 (a) (derived by the spec): `CREATE` always gives a result, a `CFG` or `InvalidParameters`; a `CFG` it
sends has `m >= 1` and `k >= 1` and the given seeds. That sizes which do not fit the fields send nothing is log 16. -/
def Obligations.CreateSendsPositiveSizes : Prop :=
  (∀ (n : ℤ) (p : ℝ) (sa sb : Word64), ∃ r, Creates n p sa sb r) ∧
  (∀ (n : ℤ) (p : ℝ) (sa sb : Word64) (i : Instr), Creates n p sa sb (.ok i) →
    0 < n ∧ 0 < p ∧ p < 1 ∧ ∃ m k, i = .cfg m k sa sb ∧ 1 ≤ m.toNat ∧ 1 ≤ k.toNat)

/-- R70: the document's example, `n = 1000`, `p = 0.01`, checked with the formulas of R68: `9585.058...` and `m = 9586`,
`6.6445...` and `k = 7`. -/
def Obligations.SizingExample : Prop :=
  (9585.058 ≤ -(1000 * Real.log 0.01) / Real.log 2 ^ 2 ∧ -(1000 * Real.log 0.01) / Real.log 2 ^ 2 < 9585.059) ∧
  IsSizeM 1000 0.01 9586 ∧
  (6.6445 ≤ (9586 / 1000 : ℝ) * Real.log 2 ∧ (9586 / 1000 : ℝ) * Real.log 2 < 6.6446) ∧
  IsSizeK 1000 9586 7

/-! The Hash Generator (41_hash_index.md). -/

/-- R79 (derived by the spec from R78): the incremental form agrees with `(h_a + i * h_b) mod M` for all inputs; the form that wraps to 64 bits does
not, on the rule's input. -/
def Obligations.IncrementalFormOfPositions : Prop :=
  (∀ (ha hb : Word64) (m i : Nat), posOf ha hb m 0 = ha.toNat % m ∧
    posOf ha hb m (i + 1) = (posOf ha hb m i + hb.toNat % m) % m) ∧
  (List.range 3).map (posOf (BitVec.allOnes 64) (BitVec.allOnes 64) 10) = [5, 0, 5] ∧
  (List.range 3).map (fun i => (BitVec.allOnes 64 + BitVec.ofNat 64 i * BitVec.allOnes 64 : Word64).toNat % 10) =
    [5, 4, 3]

/-- R78, R83 (R83 derived by the spec from R78): the position list has exactly `K` entries, entry `i` is `(h_a + i * h_b) mod M` with the base hashes of
the two seeds, and `mult` counts the `i` with that position; every entry is in range (R31). -/
def Obligations.PositionListOfAKey : Prop :=
  ∀ (s : State) (key : List Byte), s.inv = true → s.valid = true →
    (s.posList key).length = s.k.toNat ∧
    (∀ i, i < s.k.toNat → (s.posList key)[i]? =
      some (((Config.baseHash s.sa key).toNat + i * (Config.baseHash s.sb key).toNat) % s.m.toNat)) ∧
    (∀ p ∈ s.posList key, p < s.m.toNat) ∧
    (∀ p, s.mult key p = ((Finset.range s.k.toNat).filter (fun i => s.pos key i = p)).card)

/-- R80 (a) to (e), derived by the spec from R78: corner cases of the position list. -/
def Obligations.RedundantPositions : Prop :=
  ∀ (s : State) (key : List Byte), s.inv = true → s.valid = true →
    (s.m.toNat = 1 → ∀ p ∈ s.posList key, p = 0) ∧
    (s.m.toNat < s.k.toNat → ¬ (s.posList key).Nodup) ∧
    ((s.hashB key).toNat % s.m.toNat = 0 → ∀ p ∈ s.posList key, p = (s.hashA key).toNat % s.m.toNat) ∧
    (∀ i, s.pos key (i + s.m.toNat / Nat.gcd s.m.toNat ((s.hashB key).toNat % s.m.toNat)) = s.pos key i) ∧
    (s.sa = s.sb → ∀ i, s.pos key i = ((i + 1) * (s.hashA key).toNat) % s.m.toNat)

/-- R82: `IDX` answers the position of an index below `K`, a number below `M`, and changes nothing else. -/
def Obligations.IdxAnswersThePosition : Prop :=
  ∀ (s : State) (i : Word32) (key : List Byte), s.inv = true → s.valid = true → i.toNat < s.k.toNat →
    ∃ p, p = ((Config.baseHash s.sa key).toNat + i.toNat * (Config.baseHash s.sb key).toNat) % s.m.toNat ∧
      p < s.m.toNat ∧ fromBe (be 8 p) = p ∧
      exec (.idx i key) s =
        .next (s.answered ([0#8, 0#8, 0#8, 0#8, 0#8, 0#8, 0#8, 8#8] ++ be 8 p))

/-! The Filter Core (42_filter_core.md). -/

/-- R91, baseline: `INS` sets exactly the cells at the key's positions, leaves every other cell and every register as
it was, and answers `OK`. -/
def Obligations.InsSetsTheBits : Prop :=
  ∀ (s : State) (key : List Byte), s.inv = true → s.valid = true → s.build.variant = .baseline →
    ∃ a : Memory, exec (.ins key) s = .next (({ s with arr := a } : State).answered (bare 0x00#8)) ∧
      ∀ p, a.read p = if p ∈ s.posList key then 1 else s.arr.read p

/-- R111, R113, counting: `INS` raises each counter once per occurrence of its position, up to `CMAX`, leaves every
other counter and every register as it was, and answers `OK`. -/
def Obligations.InsCountsUpToTheMaximum : Prop :=
  ∀ (s : State) (key : List Byte), s.inv = true → s.valid = true → s.build.variant = .counting →
    ∃ a : Memory, exec (.ins key) s = .next (({ s with arr := a } : State).answered (bare 0x00#8)) ∧
      ∀ p, a.read p = min (s.arr.read p + s.mult key p) (2 ^ s.build.cw - 1)

/-- R92, baseline: a second `INS` of the same key changes no cell; the count of set cells never falls; one `INS`
changes at most `min(K, M)` cells. -/
def Obligations.InsIsIdempotentAndDenser : Prop :=
  ∀ (s t u : State) (key : List Byte), s.inv = true → s.valid = true → s.build.variant = .baseline →
    exec (.ins key) s = .next t → exec (.ins key) t = .next u →
    u.arr = t.arr ∧ s.ones ≤ t.ones ∧
      ((Finset.range s.m.toNat).filter (fun p => t.arr.read p ≠ s.arr.read p)).card ≤ min s.k.toNat s.m.toNat

/-- R93, R114: `QRY` answers `OK` iff every cell at the key's positions is above 0, else `ABSENT`, and changes nothing
else, in both builds. -/
def Obligations.QryTestsEveryPosition : Prop :=
  ∀ (s : State) (key : List Byte), s.valid = true →
    ((∀ p ∈ s.posList key, 0 < s.arr.read p) → exec (.qry key) s = .next (s.answered (bare 0x00#8))) ∧
    ((∃ p ∈ s.posList key, s.arr.read p = 0) → exec (.qry key) s = .next (s.answered (bare 0x01#8)))

/-- R102, R94: in a baseline build, after `INS x` ended `OK`, `QRY x` ends `OK` after any sequence of `INS`, `QRY`,
`EST`, `IDX`, `DUMP`, `UNI` commands and of commands that end with a condition. -/
def Obligations.NoFalseNegatives : Prop :=
  ∀ (s s1 s2 : State) (key f g : List Byte) (rest rest' : List Input),
    s.inv = true → s.build.variant = .baseline →
    s.inputs = .frame f :: rest → decode s.build f = .ok (.ins key) →
    step s = .next s1 → s1.lastResponse = some (bare 0x00#8) →
    Relation.ReflTransGen CalmStep s1 s2 →
    s2.inputs = .frame g :: rest' → decode s2.build g = .ok (.qry key) →
    step s2 = .next (({ s2 with inputs := rest' } : State).answered (bare 0x00#8))

/-- R103: two `QRY x` with no state-changing command between them give the same response. -/
def Obligations.QueriesAreDeterministic : Prop :=
  ∀ (s s1 s2 s3 : State) (key : List Byte), exec (.qry key) s = .next s1 →
    Relation.ReflTransGen SilentExec s1 s2 → exec (.qry key) s2 = .next s3 → s3.lastResponse = s1.lastResponse

/-- R104: if the resident filter is A and the operand is the image of a filter B of the same shape, `UNI` ends `OK`,
and afterwards `QRY x` ends `OK` for every `x` for which it would have ended `OK` on A or on a block holding B. -/
def Obligations.UnionKeepsBothMemberships : Prop :=
  ∀ s b : State, s.inv = true → b.inv = true → s.valid = true → b.valid = true → s.build.variant = .baseline →
    b.build = s.build → b.m = s.m → b.k = s.k → b.sa = s.sa → b.sb = s.sb →
    ∃ u, exec (.uni b.image) s = .next u ∧ u.lastResponse = some (bare 0x00#8) ∧
      ∀ key, (exec (.qry key) s = .next (s.answered (bare 0x00#8)) ∨
          exec (.qry key) b = .next (b.answered (bare 0x00#8))) →
        exec (.qry key) u = .next (u.answered (bare 0x00#8))

/-- R95, R105: a filter with all cells set answers "possibly present" for every key. -/
def Obligations.SaturatedFilterAnswersPresent : Prop :=
  ∀ (s : State) (key : List Byte), s.inv = true → s.isSaturated = true →
    exec (.qry key) s = .next (s.answered (bare 0x00#8))

/-- R93 (a), R115 (c): an empty filter answers "definitely absent" for every key, and removes none. -/
def Obligations.EmptyFilterHasNoMember : Prop :=
  ∀ (s : State) (key : List Byte), s.inv = true → s.isEmpty = true →
    exec (.qry key) s = .next (s.answered (bare 0x01#8)) ∧
    (s.build.variant = .counting → exec (.rem key) s = .next (s.answered (bare 0x05#8)))

/-- R36: `QRY`, `EST`, `DUMP` and `IDX` change no state at all, so each answers the same when repeated. -/
def Obligations.ReadersChangeNothing : Prop :=
  ∀ (i : Instr) (s t u : State), ((∃ key, i = .qry key) ∨ i = .est ∨ i = .dump ∨ ∃ n key, i = .idx n key) →
    exec i s = .next t → exec i t = .next u →
    t = { s with responses := t.responses } ∧ u.lastResponse = t.lastResponse

/-- R96, R98: `EST` answers the exact number of set cells and two binary64 patterns with the corner values of R98; for
`0 < ones < M` each is finite and non-negative (that -0.0 counts as non-negative is the model's choice, log 9). Nothing
else changes. -/
def Obligations.EstReportsOnesAndCorners : Prop :=
  ∀ s : State, s.inv = true → s.valid = true →
    ∃ (ones : Nat) (card fpr : Word64),
      ones = ((Finset.range s.m.toNat).filter (fun p => 0 < s.arr.read p)).card ∧ fromBe (be 8 ones) = ones ∧
      exec .est s = .next (s.answered ([0#8, 0#8, 0#8, 0#8, 0#8, 0#8, 0#8, 24#8] ++
        (be 8 ones ++ be 8 card.toNat ++ be 8 fpr.toNat))) ∧
      (ones = 0 → card = 0x0000000000000000#64 ∧ fpr = 0x0000000000000000#64) ∧
      (ones = s.m.toNat → card = 0x7FF0000000000000#64 ∧ fpr = 0x3FF0000000000000#64) ∧
      (0 < ones → ones < s.m.toNat →
        (card.toNat < 0x7FF0000000000000 ∨ card = 0x8000000000000000#64) ∧
        (fpr.toNat < 0x7FF0000000000000 ∨ fpr = 0x8000000000000000#64))

/-- The number of set cells is the length of the canonical list of cells (log 10): the exact count of R96 in the form
that is cheap to compute. -/
def Obligations.OnesIsTheListedLength : Prop :=
  ∀ s : State, s.inv = true → s.valid = true → s.ones = s.arr.length ∧ s.ones ≤ s.m.toNat

/-- R97 (the spec derives it by substitution): with the estimate of the cardinality put for the number of insertions, the false-positive estimate
simplifies to `(ones/M)^K`. -/
def Obligations.FprEstimateSimplifies : Prop :=
  ∀ (m k ones : ℕ) (x y : ℝ), 1 ≤ m → 1 ≤ k → ones < m → IsIdealCard m k ones x → IsFprOf m k x y →
    y = ((ones : ℝ) / m) ^ k

/-- R100: with a same-shaped, well-formed operand, `UNI` sets a cell iff it is set in either array, and changes nothing
else. Cell `p` of the image is bit `7 - (p mod 8)` of array byte `p div 8` (R126). -/
def Obligations.UniIsTheBitwiseOr : Prop :=
  ∀ (s : State) (image : List Byte), s.inv = true → s.valid = true → s.build.variant = .baseline →
    imgM image = s.m → imgK image = s.k → imgSA image = s.sa → imgSB image = s.sb →
    image.length = 28 + (s.m.toNat + 7) / 8 →
    (∀ j, s.m.toNat ≤ j → j < 8 * ((s.m.toNat + 7) / 8) → (image.getD (28 + j / 8) 0#8).getLsbD (7 - j % 8) = false) →
    ∃ a : Memory, exec (.uni image) s = .next (({ s with arr := a } : State).answered (bare 0x00#8)) ∧
      (∀ p, s.m.toNat ≤ p → a.read p = 0) ∧
      ∀ p, p < s.m.toNat → a.read p ≤ 1 ∧
        (0 < a.read p ↔ 0 < s.arr.read p ∨ (image.getD (28 + p / 8) 0#8).getLsbD (7 - p % 8) = true)

/-- R101: the same for `INT`, where it is built in: a cell is set iff it is set in both arrays. -/
def Obligations.IntIsTheBitwiseAnd : Prop :=
  ∀ (s : State) (image : List Byte), s.inv = true → s.valid = true → s.build.variant = .baseline →
    s.build.hasIntersect = true →
    imgM image = s.m → imgK image = s.k → imgSA image = s.sa → imgSB image = s.sb →
    image.length = 28 + (s.m.toNat + 7) / 8 →
    (∀ j, s.m.toNat ≤ j → j < 8 * ((s.m.toNat + 7) / 8) → (image.getD (28 + j / 8) 0#8).getLsbD (7 - j % 8) = false) →
    ∃ a : Memory, exec (.int image) s = .next (({ s with arr := a } : State).answered (bare 0x00#8)) ∧
      (∀ p, s.m.toNat ≤ p → a.read p = 0) ∧
      ∀ p, p < s.m.toNat → a.read p ≤ 1 ∧
        (0 < a.read p ↔ 0 < s.arr.read p ∧ (image.getD (28 + p / 8) 0#8).getLsbD (7 - p % 8) = true)

/-- R17 (d), R16: in a baseline build no command but a construction or `INT` lowers a cell, so the count of set cells
never falls. -/
def Obligations.BaselineBitsNeverClear : Prop :=
  ∀ (i : Instr) (s t : State), s.inv = true → s.build.variant = .baseline → s.valid = true →
    (∀ m k sa sb, i ≠ .cfg m k sa sb) → (∀ image, i ≠ .load image) → (∀ image, i ≠ .int image) →
    exec i s = .next t → (∀ p, s.arr.read p ≤ t.arr.read p) ∧ s.ones ≤ t.ones

/-! The Counting Layer (43_counting.md). -/

/-- R112, R115: when every counter covers its multiplicity, `REM` lowers each by it, saturated ones included, leaves
every other counter and every register as it was, and answers `OK`. -/
def Obligations.RemLowersByMultiplicity : Prop :=
  ∀ (s : State) (key : List Byte), s.inv = true → s.valid = true → s.build.variant = .counting →
    (∀ p, s.mult key p ≤ s.arr.read p) →
    ∃ a : Memory, exec (.rem key) s = .next (({ s with arr := a } : State).answered (bare 0x00#8)) ∧
      ∀ p, a.read p + s.mult key p = s.arr.read p

/-- R115, R144: when some targeted counter is smaller than its multiplicity, `REM` answers `NotPresent` and changes no
counter; `REM` ends `OK` in no such state. -/
def Obligations.RemIsAllOrNothing : Prop :=
  ∀ (s t : State) (key : List Byte), s.build.variant = .counting → s.valid = true → exec (.rem key) s = .next t →
    ((∃ p ∈ s.posList key, s.arr.read p < s.mult key p) ↔ t.lastResponse = some (bare 0x05#8)) ∧
    ((∃ p ∈ s.posList key, s.arr.read p < s.mult key p) → t = s.answered (bare 0x05#8))

/-- R113 (b), R115: where no increment is suppressed, `REM` undoes `INS`, whatever positions the key repeats. -/
def Obligations.RemUndoesIns : Prop :=
  ∀ (s : State) (key : List Byte), s.inv = true → s.valid = true → s.build.variant = .counting →
    (∀ p, s.arr.read p + s.mult key p ≤ 2 ^ s.build.cw - 1) →
    ∃ t, exec (.ins key) s = .next t ∧
      exec (.rem key) t = .next ((s.answered (bare 0x00#8)).answered (bare 0x00#8))

/-- R118, R119 (a) (derived by the spec): a counting build can answer `ABSENT` for a key that was inserted and not removed, after another key
was removed. -/
def Obligations.RemovalCanHideAnotherKey : Prop :=
  ∃ (s t u v : State) (x y : List Byte), x ≠ y ∧ s.inv = true ∧ s.valid = true ∧ s.build.variant = .counting ∧
    exec (.ins x) s = .next t ∧ t.lastResponse = some (bare 0x00#8) ∧
    exec (.rem y) t = .next u ∧ u.lastResponse = some (bare 0x00#8) ∧
    exec (.qry x) u = .next v ∧ v.lastResponse = some (bare 0x01#8)

/-! The image (44_image.md). -/

/-- R125, R126, R128, R129: `DUMP` answers the four registers and the packed array: bit `t` of the `CW` bits of cell
`p`, most significant first, is bit `p * CW + t` of the string, stored in byte `j div 8` at position `7 - (j mod 8)`;
the padding is 0. Nothing else changes. -/
def Obligations.DumpPacksTheArray : Prop :=
  ∀ s : State, s.inv = true → s.valid = true →
    ∃ array : List Byte,
      exec .dump s = .next (s.answered (respFrame 0x00#8
        (be 8 s.m.toNat ++ be 4 s.k.toNat ++ be 8 s.sa.toNat ++ be 8 s.sb.toNat ++ array))) ∧
      array.length = (s.m.toNat * s.build.cw + 7) / 8 ∧
      (∀ p t, p < s.m.toNat → t < s.build.cw →
        (array.getD ((p * s.build.cw + t) / 8) 0#8).getLsbD (7 - (p * s.build.cw + t) % 8) =
          (s.arr.read p).testBit (s.build.cw - 1 - t)) ∧
      (∀ j, s.m.toNat * s.build.cw ≤ j → j < 8 * array.length → (array.getD (j / 8) 0#8).getLsbD (7 - j % 8) = false)

/-- R127, R130: `LOAD` of an image whose parameters, length and padding are right writes every register and every cell:
bit `CW - 1 - t` of cell `p` is bit `p * CW + t` of the string. It is legal with and without a filter. -/
def Obligations.LoadReadsTheArray : Prop :=
  ∀ (s : State) (image : List Byte), s.build.ok = true →
    1 ≤ (imgM image).toNat → (imgM image).toNat ≤ s.build.mMax →
    1 ≤ (imgK image).toNat → (imgK image).toNat ≤ s.build.kMax →
    image.length = 28 + ((imgM image).toNat * s.build.cw + 7) / 8 →
    (∀ j, (imgM image).toNat * s.build.cw ≤ j → j < 8 * (image.length - 28) →
      (image.getD (28 + j / 8) 0#8).getLsbD (7 - j % 8) = false) →
    ∃ a : Memory,
      exec (.load image) s = .next (({ s with valid := true, m := imgM image, k := imgK image, sa := imgSA image, sb := imgSB image, arr := a } : State).answered
        (bare 0x00#8)) ∧
      (∀ p, (imgM image).toNat ≤ p → a.read p = 0) ∧
      ∀ p, p < (imgM image).toNat → a.read p < 2 ^ s.build.cw ∧
        ∀ t, t < s.build.cw → (a.read p).testBit (s.build.cw - 1 - t) =
          (image.getD (28 + (p * s.build.cw + t) / 8) 0#8).getLsbD (7 - (p * s.build.cw + t) % 8)

/-- R133 (derived by the spec from the layout rules): what `DUMP` answers, `LOAD` takes on any block of the same variant and width with room enough, and leaves
`VALID`, `M`, `K`, `SA`, `SB` and the array equal; `DUMP` after it answers the same payload. -/
def Obligations.DumpThenLoadRestoresTheFilter : Prop :=
  ∀ s t : State, s.inv = true → s.valid = true → t.build.variant = s.build.variant → t.build.cw = s.build.cw →
    s.m.toNat ≤ t.build.mMax → s.k.toNat ≤ t.build.kMax →
    ∃ image u, exec .dump s = .next (s.answered (respFrame 0x00#8 image)) ∧
      u = ({ t with valid := true, m := s.m, k := s.k, sa := s.sa, sb := s.sb, arr := s.arr } : State).answered
        (bare 0x00#8) ∧
      exec (.load image) t = .next u ∧
      exec .dump u = .next (u.answered (respFrame 0x00#8 image))

/-- R128: an image that `LOAD` takes is the image that `DUMP` then answers, so one filter state has one image. -/
def Obligations.LoadThenDumpReturnsTheImage : Prop :=
  ∀ (s t : State) (image : List Byte), s.build.ok = true → exec (.load image) s = .next t →
    t.lastResponse = some (bare 0x00#8) →
    exec .dump t = .next (t.answered (respFrame 0x00#8 image))
end

