-- ==== Sys2Proof/Laws/Bytes.lean ====
section
/-! SUPPORT. Byte order: `be` and `fromBe` are inverse to each other (00_scope.md R9). -/

namespace Sys2Proof

@[simp] theorem be_length (n v : Nat) : (be n v).length = n := by
  induction n generalizing v with
  | zero => rfl
  | succ n ih => simp [be, ih]

theorem fromBe_lt (xs : List Byte) : fromBe xs < 256 ^ xs.length := by
  induction xs with
  | nil => simp [fromBe]
  | cons x xs ih =>
    have hx : x.toNat ≤ 255 := by have := x.isLt; omega
    have hm : x.toNat * 256 ^ xs.length ≤ 255 * 256 ^ xs.length := Nat.mul_le_mul_right _ hx
    simp only [fromBe, List.length_cons, Nat.pow_succ]
    omega

theorem fromBe_be (n v : Nat) : fromBe (be n v) = v % 256 ^ n := by
  induction n generalizing v with
  | zero => simp [be, fromBe, Nat.mod_one]
  | succ n ih =>
    simp only [be, fromBe, be_length, ih, BitVec.toNat_ofNat]
    rw [Nat.pow_succ 256 n, Nat.mod_mul, Nat.mul_comm (256 ^ n), Nat.add_comm]

theorem be_eq_of_mod (n v w : Nat) (h : v % 256 ^ n = w % 256 ^ n) : be n v = be n w := by
  induction n generalizing v w with
  | zero => rfl
  | succ n ih =>
    have hd : (256 : Nat) ^ n ∣ 256 ^ (n + 1) := Dvd.intro _ (Nat.pow_succ ..).symm
    have h1 : v % 256 ^ n = w % 256 ^ n := by
      rw [← Nat.mod_mod_of_dvd v hd, h, Nat.mod_mod_of_dvd w hd]
    simp only [be, ih v w h1, List.cons.injEq, and_true]
    apply BitVec.eq_of_toNat_eq
    simp only [BitVec.toNat_ofNat]
    rw [Nat.pow_succ, Nat.mod_mul, Nat.mod_mul] at h
    have hp : 0 < 256 ^ n := Nat.pow_pos (by omega)
    have h2 : 256 ^ n * (v / 256 ^ n % 256) = 256 ^ n * (w / 256 ^ n % 256) := by omega
    simpa using Nat.eq_of_mul_eq_mul_left hp h2

theorem be_fromBe (xs : List Byte) : be xs.length (fromBe xs) = xs := by
  induction xs with
  | nil => rfl
  | cons x xs ih =>
    have hp : 0 < 256 ^ xs.length := Nat.pow_pos (by omega)
    have hl := fromBe_lt xs
    simp only [List.length_cons, be, fromBe, List.cons.injEq]
    constructor
    · apply BitVec.eq_of_toNat_eq
      rw [BitVec.toNat_ofNat, Nat.mul_comm, Nat.mul_add_div hp, Nat.div_eq_of_lt hl, Nat.add_zero]
      exact Nat.mod_eq_of_lt x.isLt
    · rw [be_eq_of_mod xs.length _ (fromBe xs) (by simp), ih]

/-- A register written out and read back (8 bytes). -/
theorem word64_be (x : Word64) : BitVec.ofNat 64 (fromBe (be 8 x.toNat)) = x := by
  rw [fromBe_be]; apply BitVec.eq_of_toNat_eq
  have := x.isLt
  simp only [BitVec.toNat_ofNat]; omega

/-- A register written out and read back (4 bytes). -/
theorem word32_be (x : Word32) : BitVec.ofNat 32 (fromBe (be 4 x.toNat)) = x := by
  rw [fromBe_be]; apply BitVec.eq_of_toNat_eq
  have := x.isLt
  simp only [BitVec.toNat_ofNat]; omega

/-- Eight bytes read as a register and written out again. -/
theorem be_word64 (xs : List Byte) (h : xs.length = 8) : be 8 (BitVec.ofNat 64 (fromBe xs)).toNat = xs := by
  have hl := fromBe_lt xs
  rw [h] at hl
  rw [BitVec.toNat_ofNat, Nat.mod_eq_of_lt (by omega), ← h, be_fromBe]

/-- Four bytes read as a register and written out again. -/
theorem be_word32 (xs : List Byte) (h : xs.length = 4) : be 4 (BitVec.ofNat 32 (fromBe xs)).toNat = xs := by
  have hl := fromBe_lt xs
  rw [h] at hl
  rw [BitVec.toNat_ofNat, Nat.mod_eq_of_lt (by omega), ← h, be_fromBe]

theorem slice_length (a n : Nat) (s : List Byte) (h : a + n ≤ s.length) : (slice a n s).length = n := by
  simp [slice]; omega

/-- Consecutive slices join. -/
theorem slice_append_slice (a m n : Nat) (s : List Byte) :
    slice a m s ++ slice (a + m) n s = slice a (m + n) s := by
  simp only [slice, List.take_add, List.drop_drop]

/-- Opcode bytes are read back (R49). -/
theorem ofByte_code (op : Opcode) : Opcode.ofByte op.code = some op := by cases op <;> rfl

/-- A byte that selects a command is that command's code (R54: no reserved byte does). -/
theorem code_of_ofByte (o : Byte) (op : Opcode) (h : Opcode.ofByte o = some op) : op.code = o := by
  revert o op; decide

end Sys2Proof
end

