-- ==== Sys2Proof/Laws/Memory.lean ====
section
/-! SUPPORT. The cell array: read after write, and the canonical form is kept by every operation. -/

namespace Sys2Proof.Machine

@[simp] theorem Memory.read_nil (p : Nat) : Memory.read [] p = 0 := rfl

theorem Memory.read_cons (q v : Nat) (r : Memory) (p : Nat) :
    Memory.read ((q, v) :: r) p = if q = p then v else Memory.read r p := rfl

theorem Memory.wf_cons (q v : Nat) (r : Memory) :
    Memory.wf ((q, v) :: r) = true ↔ v ≠ 0 ∧ (∀ e ∈ r, q < e.1) ∧ Memory.wf r = true := by
  simp [Memory.wf, and_assoc]

/-- A position at or below every listed one and not listed reads 0. -/
theorem Memory.read_eq_zero (r : Memory) (p : Nat) (h : ∀ e ∈ r, p < e.1) : r.read p = 0 := by
  induction r with
  | nil => rfl
  | cons e r ih =>
    obtain ⟨q, v⟩ := e
    have hq : p < q := h (q, v) (by simp)
    rw [Memory.read_cons, if_neg (by omega)]
    exact ih fun e he => h e (by simp [he])

theorem Memory.mem_write (a : Memory) (p v : Nat) (e : Nat × Nat) (h : e ∈ a.write p v) :
    e ∈ a ∨ (e = (p, v) ∧ v ≠ 0) := by
  induction a with
  | nil =>
    simp only [Memory.write] at h
    split at h <;> simp_all
  | cons c a ih =>
    obtain ⟨q, w⟩ := c
    simp only [Memory.write] at h
    split at h
    · split at h <;> simp_all
      tauto
    · split at h
      · split at h <;> simp_all
        tauto
      · rcases List.mem_cons.mp h with h | h
        · left; simp [h]
        · rcases ih h with h | h
          · left; simp [h]
          · right; exact h

/-- Every write keeps the canonical form. -/
theorem Memory.wf_write (a : Memory) (p v : Nat) (h : a.wf = true) : (a.write p v).wf = true := by
  induction a with
  | nil =>
    simp only [Memory.write]
    split <;> simp_all [Memory.wf]
  | cons c a ih =>
    obtain ⟨q, w⟩ := c
    obtain ⟨hw, hq, ha⟩ := (Memory.wf_cons ..).mp h
    simp only [Memory.write]
    split
    · next hp =>
      split
      · exact h
      · next hv =>
        refine (Memory.wf_cons ..).mpr ⟨hv, fun e he => ?_, h⟩
        rcases List.mem_cons.mp he with rfl | he
        · exact hp
        · exact Nat.lt_trans hp (hq e he)
    · split
      · next hp =>
        subst hp
        split
        · exact ha
        · next hv => exact (Memory.wf_cons ..).mpr ⟨hv, hq, ha⟩
      · refine (Memory.wf_cons ..).mpr ⟨hw, fun e he => ?_, ih ha⟩
        rcases Memory.mem_write a p v e he with he | ⟨rfl, _⟩
        · exact hq e he
        · show q < p; omega

/-- Read after write. -/
theorem Memory.read_write (a : Memory) (p v q : Nat) (h : a.wf = true) :
    (a.write p v).read q = if q = p then v else a.read q := by
  induction a with
  | nil =>
    simp only [Memory.write]
    by_cases hq : q = p
    · subst hq; split <;> simp_all [Memory.read]
    · split <;> simp_all [Memory.read, Ne.symm hq]
  | cons c a ih =>
    obtain ⟨r, w⟩ := c
    obtain ⟨-, hr, ha⟩ := (Memory.wf_cons ..).mp h
    simp only [Memory.write]
    split
    · next hp =>
      have h0 : q = p → Memory.read ((r, w) :: a) q = 0 := fun hq =>
        Memory.read_eq_zero _ _ fun e he => by
          rcases List.mem_cons.mp he with rfl | he
          · exact hq ▸ hp
          · exact Nat.lt_trans (hq ▸ hp) (hr e he)
      split
      · next hv => split <;> simp_all
      · rw [Memory.read_cons]
        simp only [eq_comm]
    · split
      · next hp =>
        subst hp
        have h0 : Memory.read a p = 0 := Memory.read_eq_zero _ _ hr
        split
        · next hv =>
          subst hv
          split
          · next hq => rw [hq, h0]
          · next hq => rw [Memory.read_cons, if_neg (Ne.symm hq)]
        · simp only [Memory.read_cons, eq_comm]
          split <;> simp_all
      · next hp1 hp2 =>
        simp only [Memory.read_cons, ih ha]
        split
        · next hq => subst hq; rw [if_neg (by omega)]
        · rfl

/-- Equal reads make equal canonical arrays. -/
theorem Memory.ext_read (a b : Memory) (ha : a.wf = true) (hb : b.wf = true)
    (h : ∀ p, a.read p = b.read p) : a = b := by
  induction a generalizing b with
  | nil =>
    cases b with
    | nil => rfl
    | cons c b =>
      obtain ⟨q, w⟩ := c
      have := h q
      simp only [Memory.read_nil, Memory.read_cons, if_true] at this
      exact absurd this.symm ((Memory.wf_cons ..).mp hb).1
  | cons d a ih =>
    obtain ⟨p, v⟩ := d
    obtain ⟨hv, hp, ha'⟩ := (Memory.wf_cons ..).mp ha
    cases b with
    | nil =>
      have := h p
      simp only [Memory.read_nil, Memory.read_cons, if_true] at this
      exact absurd this hv
    | cons c b =>
      obtain ⟨q, w⟩ := c
      obtain ⟨hw, hq, hb'⟩ := (Memory.wf_cons ..).mp hb
      have hpq : p = q := by
        rcases Nat.lt_trichotomy p q with hlt | heq | hgt
        · have h1 := h p
          rw [Memory.read_cons, if_pos rfl, Memory.read_cons, if_neg (by omega),
            Memory.read_eq_zero b p fun e he => Nat.lt_trans hlt (hq e he)] at h1
          exact absurd h1 hv
        · exact heq
        · have h1 := h q
          rw [Memory.read_cons, if_neg (by omega), Memory.read_cons, if_pos rfl,
            Memory.read_eq_zero a q fun e he => Nat.lt_trans hgt (hp e he)] at h1
          exact absurd h1.symm hw
      subst hpq
      have hvw : v = w := by simpa [Memory.read_cons] using h p
      subst hvw
      rw [ih b ha' hb' fun r => ?_]
      have hr := h r
      simp only [Memory.read_cons] at hr
      by_cases hpr : p = r
      · subst hpr
        rw [Memory.read_eq_zero a p hp, Memory.read_eq_zero b p hq]
      · simpa [hpr] using hr

theorem Memory.wf_iff_pairwise (a : Memory) :
    a.wf = true ↔ (∀ e ∈ a, e.2 ≠ 0) ∧ a.Pairwise (fun x y => x.1 < y.1) := by
  induction a with
  | nil => simp [Memory.wf]
  | cons c a ih =>
    obtain ⟨q, w⟩ := c
    rw [Memory.wf_cons, ih, List.pairwise_cons, List.forall_mem_cons]
    tauto

/-- An array made cell by cell is canonical. -/
theorem Memory.wf_ofFn (n : Nat) (f : Nat → Nat) : (Memory.ofFn n f).wf = true := by
  rw [Memory.wf_iff_pairwise]
  constructor
  · intro e he
    simp only [Memory.ofFn, List.mem_filterMap] at he
    obtain ⟨p, -, hp⟩ := he
    split at hp <;> simp_all
    rw [← hp]; assumption
  · rw [Memory.ofFn, List.pairwise_filterMap]
    refine List.pairwise_lt_range.imp fun {x y} hxy e he e' he' => ?_
    split at he <;> split at he' <;> simp_all
    rw [← he, ← he']; exact hxy

theorem Memory.read_append (a b : Memory) (p : Nat) (h : ∀ e ∈ a, e.1 ≠ p) :
    Memory.read (a ++ b) p = b.read p := by
  induction a with
  | nil => rfl
  | cons c a ih =>
    obtain ⟨q, w⟩ := c
    have hq : q ≠ p := h (q, w) (by simp)
    rw [List.cons_append, Memory.read_cons, if_neg hq]
    exact ih fun e he => h e (by simp [he])

/-- What an array made cell by cell reads as. -/
theorem Memory.read_ofFn (n : Nat) (f : Nat → Nat) (p : Nat) :
    (Memory.ofFn n f).read p = if p < n then f p else 0 := by
  have key : ∀ l : List Nat, l.Nodup →
      Memory.read (l.filterMap (fun p => if f p = 0 then none else some (p, f p))) p = if p ∈ l then f p else 0 := by
    intro l hl
    induction l with
    | nil => rfl
    | cons q l ih =>
      obtain ⟨hq, hl⟩ := List.nodup_cons.mp hl
      by_cases h0 : f q = 0
      · simp only [List.filterMap_cons, h0, if_true, ih hl, List.mem_cons]
        by_cases hpq : p = q
        · subst hpq; simp [hq, h0]
        · simp [hpq]
      · simp only [List.filterMap_cons, h0, if_false, Memory.read_cons, ih hl, List.mem_cons]
        by_cases hpq : p = q
        · subst hpq; simp
        · simp [hpq, Ne.symm hpq]
  have := key (List.range n) List.nodup_range
  simpa [Memory.ofFn, List.mem_range] using this

theorem Memory.wf_ofCells (l : List (Nat × Nat)) : (Memory.ofCells l).wf = true := by
  induction l with
  | nil => rfl
  | cons c l ih => exact Memory.wf_write _ _ _ ih

/-- `Memory.within` said of reads. -/
theorem Memory.within_iff (a : Memory) (n c : Nat) (h : a.wf = true) :
    a.within n c = true ↔ ∀ p, a.read p ≤ c ∧ (n ≤ p → a.read p = 0) := by
  induction a with
  | nil => simp [Memory.within]
  | cons d a ih =>
    obtain ⟨q, w⟩ := d
    obtain ⟨hw, hq, ha⟩ := (Memory.wf_cons ..).mp h
    have hcons : Memory.within ((q, w) :: a) n c = true ↔ (q < n ∧ w ≤ c) ∧ Memory.within a n c = true := by
      simp [Memory.within]
    rw [hcons, ih ha]
    constructor
    · rintro ⟨⟨h1, h2⟩, h3⟩ p
      rw [Memory.read_cons]
      split
      · exact ⟨h2, fun hn => by omega⟩
      · exact h3 p
    · intro h1
      have hqq := h1 q
      rw [Memory.read_cons, if_pos rfl] at hqq
      refine ⟨⟨?_, hqq.1⟩, fun p => ?_⟩
      · by_contra hn
        exact hw (hqq.2 (by omega))
      · have hp := h1 p
        rw [Memory.read_cons] at hp
        split at hp
        · next heq =>
          subst heq
          rw [Memory.read_eq_zero a q hq]
          exact ⟨Nat.zero_le _, fun _ => rfl⟩
        · exact hp

end Sys2Proof.Machine
end

