-- ==== Sys2Proof/Laws/Cells.lean ====
section
/-! SUPPORT. What the cell operations over a list of positions leave in each cell, and the positions themselves. -/

namespace Sys2Proof.Machine

theorem Memory.isSet_iff (a : Memory) (p : Nat) : a.isSet p = true ↔ 0 < a.read p := by simp [Memory.isSet]

theorem allSet_iff (a : Memory) (ps : List Nat) : allSet a ps = true ↔ ∀ p ∈ ps, 0 < a.read p := by
  simp [allSet, Memory.isSet]

theorem covers_iff (a : Memory) (ps : List Nat) : covers a ps = true ↔ ∀ p, ps.count p ≤ a.read p := by
  simp only [covers, List.all_eq_true, decide_eq_true_eq]
  refine ⟨fun h p => ?_, fun h p _ => h p⟩
  by_cases hp : p ∈ ps
  · exact h p hp
  · rw [List.count_eq_zero.mpr hp]; exact Nat.zero_le _

theorem wf_bump (b : Build) (a : Memory) (p : Nat) (h : a.wf = true) : (bump b a p).wf = true := by
  unfold bump; split <;> exact Memory.wf_write _ _ _ h

theorem wf_bumpAll (b : Build) (a : Memory) (ps : List Nat) (h : a.wf = true) : (bumpAll b a ps).wf = true := by
  induction ps generalizing a with
  | nil => exact h
  | cons p ps ih => exact ih _ (wf_bump b a p h)

/-- `Bump` over a list in a baseline build (42 R91). -/
theorem read_bumpAll_baseline (b : Build) (hb : b.variant = .baseline) (a : Memory) (ps : List Nat)
    (h : a.wf = true) (q : Nat) : (bumpAll b a ps).read q = if q ∈ ps then 1 else a.read q := by
  induction ps generalizing a with
  | nil => simp [bumpAll]
  | cons p ps ih =>
    show (bumpAll b (bump b a p) ps).read q = _
    rw [ih _ (wf_bump b a p h)]
    simp only [bump, hb, Memory.read_write a _ _ _ h, List.mem_cons]
    by_cases h1 : q ∈ ps <;> by_cases h2 : q = p <;> simp [h1, h2]

/-- `Bump` over a list in a counting build (43 R111, R113): once per occurrence, up to `CMAX`. -/
theorem read_bumpAll_counting (b : Build) (hb : b.variant = .counting) (a : Memory) (ps : List Nat)
    (h : a.wf = true) (q : Nat) :
    (bumpAll b a ps).read q = if q ∈ ps then min (a.read q + ps.count q) (cmax b) else a.read q := by
  induction ps generalizing a with
  | nil => simp [bumpAll]
  | cons p ps ih =>
    show (bumpAll b (bump b a p) ps).read q = _
    rw [ih _ (wf_bump b a p h)]
    simp only [bump, hb, Memory.read_write a _ _ _ h, List.mem_cons, List.count_cons, beq_iff_eq]
    by_cases h1 : q ∈ ps
    · by_cases h2 : q = p
      · subst h2; simp only [h1, if_true, or_true]; omega
      · simp [h1, h2, Ne.symm h2]
    · rw [List.count_eq_zero.mpr h1]
      by_cases h2 : q = p
      · subst h2; simp [h1]
      · simp [h1, h2]

theorem wf_decAll (a : Memory) (ps : List Nat) (h : a.wf = true) : (decAll a ps).wf = true := by
  induction ps generalizing a with
  | nil => exact h
  | cons p ps ih => exact ih _ (Memory.wf_write _ _ _ h)

/-- `Dec` over a list (43 R115): each cell is lowered by its multiplicity. -/
theorem read_decAll (a : Memory) (ps : List Nat) (h : a.wf = true) (q : Nat) :
    (decAll a ps).read q = a.read q - ps.count q := by
  induction ps generalizing a with
  | nil => simp [decAll]
  | cons p ps ih =>
    show (decAll (dec a p) ps).read q = _
    rw [ih (dec a p) (Memory.wf_write _ _ _ h), dec, Memory.read_write a _ _ _ h, List.count_cons]
    by_cases h2 : q = p
    · subst h2; simp only [if_true, beq_self_eq_true]; omega
    · simp [h2, Ne.symm h2]

@[simp] theorem State.posList_length (s : State) (key : List Byte) : (s.posList key).length = s.k.toNat := by
  simp [State.posList]

/-- Every position is in range (20 R31). -/
theorem State.posList_lt (s : State) (key : List Byte) (hm : 1 ≤ s.m.toNat) (p : Nat) (hp : p ∈ s.posList key) :
    p < s.m.toNat := by
  simp only [State.posList, List.mem_map] at hp
  obtain ⟨i, -, rfl⟩ := hp
  exact Nat.mod_lt _ hm

/-- The positions depend on `M`, `K`, `SA`, `SB` and the key only (41 R81). -/
theorem State.posList_congr (s t : State) (key : List Byte) (hm : s.m = t.m) (hk : s.k = t.k) (ha : s.sa = t.sa)
    (hb : s.sb = t.sb) : s.posList key = t.posList key := by
  simp [State.posList, State.pos, State.hashA, State.hashB, hm, hk, ha, hb]

end Sys2Proof.Machine
end

