-- ==== Sys2Proof/Laws/Image.lean ====
section
/-! SUPPORT. The image: reading back what was packed, and packing what was read (44_image.md R126 to R128). -/

namespace Sys2Proof.Machine

theorem ofBits_lt (n : Nat) (f : Nat → Bool) : ofBits n f < 2 ^ n := by
  induction n with
  | zero => simp [ofBits]
  | succ n ih => simp only [ofBits, Nat.pow_succ]; split <;> omega

theorem testBit_ofBits (n : Nat) (f : Nat → Bool) (i : Nat) :
    (ofBits n f).testBit i = (decide (i < n) && f i) := by
  induction n with
  | zero => simp [ofBits]
  | succ n ih =>
    have hlt := ofBits_lt n f
    simp only [ofBits]
    by_cases hf : f n = true
    · rw [if_pos hf, Nat.add_comm]
      rcases Nat.lt_trichotomy i n with h | h | h
      · rw [Nat.testBit_two_pow_add_gt h, ih]; simp [h, Nat.lt_succ_of_lt h]
      · subst h
        rw [Nat.testBit_two_pow_add_eq, Nat.testBit_lt_two_pow hlt]; simp [hf]
      · rw [Nat.testBit_lt_two_pow (by
          calc 2 ^ n + ofBits n f < 2 ^ n + 2 ^ n := by omega
            _ = 2 ^ (n + 1) := by rw [Nat.pow_succ]; omega
            _ ≤ 2 ^ i := Nat.pow_le_pow_right (by omega) h)]
        simp; omega
    · rw [if_neg hf, Nat.add_zero, ih]
      by_cases h : i = n
      · subst h; simp [hf]
      · have : (i < n + 1) ↔ (i < n) := by omega
        simp [this]

/-- The bits of a number below `2^n`. -/
theorem ofBits_testBit (n v : Nat) (h : v < 2 ^ n) : ofBits n (fun i => v.testBit i) = v := by
  apply Nat.eq_of_testBit_eq
  intro i
  rw [testBit_ofBits]
  by_cases hi : i < n
  · simp [hi]
  · have : v.testBit i = false :=
      Nat.testBit_lt_two_pow (Nat.lt_of_lt_of_le h (Nat.pow_le_pow_right (by omega) (by omega)))
    simp [hi, this]

theorem ofBits_congr (n : Nat) (f g : Nat → Bool) (h : ∀ i, i < n → f i = g i) : ofBits n f = ofBits n g := by
  apply Nat.eq_of_testBit_eq
  intro i
  rw [testBit_ofBits, testBit_ofBits]
  by_cases hi : i < n
  · simp [hi, h i hi]
  · simp [hi]

theorem getLsbD_packByte (b : Build) (m : Nat) (a : Memory) (j i : Nat) (hi : i < 8) :
    (packByte b m a j).getLsbD i = packBit b m a (8 * j + (7 - i)) := by
  rw [packByte, BitVec.getLsbD_ofNat, testBit_ofBits]
  simp [hi]

@[simp] theorem pack_length (b : Build) (m : Nat) (a : Memory) : (pack b m a).length = arrayLen b m := by
  simp [pack]

/-- A bit of the string `S` read back from the packed array. -/
theorem imgBit_append_pack (b : Build) (m : Nat) (a : Memory) (hdr : List Byte) (hh : hdr.length = 28) (j : Nat)
    (hj : j < 8 * arrayLen b m) : imgBit (hdr ++ pack b m a) j = packBit b m a j := by
  have hlt : j / 8 < arrayLen b m := by omega
  have hget : (hdr ++ pack b m a).getD (28 + j / 8) 0#8 = packByte b m a (j / 8) := by
    rw [List.getD_eq_getElem?_getD, List.getElem?_append_right (by omega), hh]
    simp [pack, hlt]
  rw [imgBit, hget, getLsbD_packByte _ _ _ _ _ (by omega)]
  congr 1; omega

/-- The padding that `pack` writes is 0 (44 R128). -/
theorem imgPaddingOk_append_pack (b : Build) (m : Nat) (a : Memory) (hdr : List Byte) (hh : hdr.length = 28) :
    imgPaddingOk b m (hdr ++ pack b m a) = true := by
  simp only [imgPaddingOk, List.all_eq_true, List.mem_range, Bool.not_eq_true']
  intro j hj
  rw [imgBit_append_pack b m a hdr hh _ (by omega)]
  simp [packBit]

/-- A packed cell is read back (44 R127). -/
theorem imgCell_append_pack (b : Build) (hcw : 1 ≤ b.cw) (m : Nat) (a : Memory) (hdr : List Byte)
    (hh : hdr.length = 28) (p : Nat) (hp : p < m) (hv : a.read p < 2 ^ b.cw) :
    imgCell b (hdr ++ pack b m a) p = a.read p := by
  rw [imgCell, ← ofBits_testBit b.cw (a.read p) hv]
  apply ofBits_congr
  intro i hi
  have hlt : p * b.cw + (b.cw - 1 - i) < m * b.cw := by
    have : (p + 1) * b.cw ≤ m * b.cw := Nat.mul_le_mul_right _ hp
    rw [Nat.add_mul] at this; omega
  have hlen : m * b.cw ≤ 8 * arrayLen b m := by unfold arrayLen; omega
  rw [imgBit_append_pack b m a hdr hh _ (by omega), packBit]
  have hdiv : (p * b.cw + (b.cw - 1 - i)) / b.cw = p := by
    rw [Nat.mul_comm, Nat.mul_add_div (by omega), Nat.div_eq_of_lt (by omega), Nat.add_zero]
  have hmod : (p * b.cw + (b.cw - 1 - i)) % b.cw = b.cw - 1 - i := by
    rw [Nat.mul_comm, Nat.mul_add_mod, Nat.mod_eq_of_lt (by omega)]
  rw [hdiv, hmod, show b.cw - 1 - (b.cw - 1 - i) = i by omega]
  simp [hlt]

/-- A cell read from an image is a `CW`-bit value (R17 (b)). -/
theorem imgCell_le (b : Build) (image : List Byte) (p : Nat) : imgCell b image p ≤ cmax b := by
  have := ofBits_lt b.cw (fun i => imgBit image (p * b.cw + (b.cw - 1 - i)))
  unfold imgCell cmax; omega

/-- The array part of an accepted image is what `pack` writes for the cells it holds (44 R128). -/
theorem pack_imgCells (b : Build) (hcw : 1 ≤ b.cw) (m : Nat) (image : List Byte)
    (hl : imgLenOk b m image = true) (hp : imgPaddingOk b m image = true) :
    pack b m (Memory.ofFn m (imgCell b image)) = image.drop 28 := by
  simp only [imgLenOk, decide_eq_true_eq] at hl
  simp only [imgPaddingOk, List.all_eq_true, List.mem_range, Bool.not_eq_true'] at hp
  apply List.ext_getElem
  · simp [hl]
  · intro j h1 h2
    simp only [pack_length] at h1
    simp only [pack, List.getElem_map, List.getElem_range, List.getElem_drop]
    apply BitVec.eq_of_getLsbD_eq
    intro i hi
    rw [getLsbD_packByte _ _ _ _ _ hi]
    have hbit : imgBit image (8 * j + (7 - i)) = image[28 + j].getLsbD i := by
      rw [imgBit, show (8 * j + (7 - i)) / 8 = j by omega, show 7 - (8 * j + (7 - i)) % 8 = i by omega]
      rw [List.getD_eq_getElem?_getD, List.getElem?_eq_getElem (by omega)]
      rfl
    rw [← hbit]
    generalize hn : 8 * j + (7 - i) = n
    have hn8 : n < 8 * arrayLen b m := by omega
    by_cases hnm : n < m * b.cw
    · have hdiv : n / b.cw < m := Nat.div_lt_of_lt_mul (by rw [Nat.mul_comm]; exact hnm)
      have hmod : n % b.cw < b.cw := Nat.mod_lt _ hcw
      have hnn : n / b.cw * b.cw + (b.cw - 1 - (b.cw - 1 - n % b.cw)) = n := by
        have := Nat.div_add_mod n b.cw
        rw [Nat.mul_comm] at this; omega
      rw [packBit, Memory.read_ofFn, if_pos hdiv, imgCell, testBit_ofBits, hnn]
      simp [hnm]; omega
    · have := hp (n - m * b.cw) (by omega)
      rw [show m * b.cw + (n - m * b.cw) = n by omega] at this
      simp [packBit, hnm, this]

/-- Of the build, only the cell width enters the packed array (44 R132). -/
theorem pack_congr (b b' : Build) (h : b.cw = b'.cw) (m : Nat) (a : Memory) : pack b m a = pack b' m a := by
  unfold pack packByte packBit arrayLen
  simp only [h]

/-- Of the build, only the cell width enters a cell read back. -/
theorem imgCell_congr (b b' : Build) (h : b.cw = b'.cw) (image : List Byte) (p : Nat) :
    imgCell b image p = imgCell b' image p := by
  unfold imgCell
  rw [h]

theorem State.image_eq (s : State) :
    s.image = (be 8 s.m.toNat ++ be 4 s.k.toNat ++ be 8 s.sa.toNat ++ be 8 s.sb.toNat) ++
      pack s.build s.m.toNat s.arr := rfl

/-- The header fields of a dumped image are the registers (44 R125). -/
theorem State.image_header (s : State) :
    imgM s.image = s.m ∧ imgK s.image = s.k ∧ imgSA s.image = s.sa ∧ imgSB s.image = s.sb := by
  have h : ∀ (a b c d e : List Byte), a.length = 8 → b.length = 4 → c.length = 8 → d.length = 8 →
      slice 0 8 (a ++ b ++ c ++ d ++ e) = a ∧ slice 8 4 (a ++ b ++ c ++ d ++ e) = b ∧
      slice 12 8 (a ++ b ++ c ++ d ++ e) = c ∧ slice 20 8 (a ++ b ++ c ++ d ++ e) = d := by
    intro a b c d e ha hb hc hd
    have hda : ∀ n, 8 ≤ n → a.drop n = [] := fun n hn => List.drop_eq_nil_of_le (by omega)
    have hdb : ∀ n, 4 ≤ n → b.drop n = [] := fun n hn => List.drop_eq_nil_of_le (by omega)
    simp [slice, List.drop_append, ha, hb, hc, hd, hda, hdb]
  obtain ⟨h1, h2, h3, h4⟩ := h _ _ _ _ (pack s.build s.m.toNat s.arr) (be_length 8 s.m.toNat)
    (be_length 4 s.k.toNat) (be_length 8 s.sa.toNat) (be_length 8 s.sb.toNat)
  unfold State.image imgM imgK imgSA imgSB
  rw [h1, h2, h3, h4]
  exact ⟨word64_be _, word32_be _, word64_be _, word64_be _⟩

/-- The header fields written out again are the first 28 bytes of the image. -/
theorem header_bytes (image : List Byte) (h : 28 ≤ image.length) :
    be 8 (imgM image).toNat ++ be 4 (imgK image).toNat ++ be 8 (imgSA image).toNat ++ be 8 (imgSB image).toNat =
      image.take 28 := by
  unfold imgM imgK imgSA imgSB
  rw [be_word64 _ (slice_length _ _ _ (by omega)), be_word32 _ (slice_length _ _ _ (by omega)),
    be_word64 _ (slice_length _ _ _ (by omega)), be_word64 _ (slice_length _ _ _ (by omega))]
  rw [slice_append_slice 0 8 4, slice_append_slice 0 12 8, slice_append_slice 0 20 8]
  rfl

@[simp] theorem State.image_length (s : State) : s.image.length = 28 + arrayLen s.build s.m.toNat := by
  simp [State.image]; omega

end Sys2Proof.Machine
end

