-- ==== Sys2Proof/Laws/State.lean ====
section
/-! SUPPORT. One lemma per field for each update of the state, so that no proof unfolds one. -/

namespace Sys2Proof.Machine

section respond
variable (s : State) (c : Byte) (p : List Byte)
@[simp] theorem State.respond_build : (s.respond c p).build = s.build := rfl
@[simp] theorem State.respond_valid : (s.respond c p).valid = s.valid := rfl
@[simp] theorem State.respond_m : (s.respond c p).m = s.m := rfl
@[simp] theorem State.respond_k : (s.respond c p).k = s.k := rfl
@[simp] theorem State.respond_sa : (s.respond c p).sa = s.sa := rfl
@[simp] theorem State.respond_sb : (s.respond c p).sb = s.sb := rfl
@[simp] theorem State.respond_arr : (s.respond c p).arr = s.arr := rfl
@[simp] theorem State.respond_inputs : (s.respond c p).inputs = s.inputs := rfl
@[simp] theorem State.respond_responses : (s.respond c p).responses = s.responses ++ [respFrame c p] := rfl
@[simp] theorem State.respond_freeCount : (s.respond c p).freeCount = s.freeCount := rfl
end respond

section construct
variable (s : State) (m : Word64) (k : Word32) (sa sb : Word64) (a : Memory)
@[simp] theorem State.construct_build : (s.construct m k sa sb a).build = s.build := rfl
@[simp] theorem State.construct_valid : (s.construct m k sa sb a).valid = true := rfl
@[simp] theorem State.construct_m : (s.construct m k sa sb a).m = m := rfl
@[simp] theorem State.construct_k : (s.construct m k sa sb a).k = k := rfl
@[simp] theorem State.construct_sa : (s.construct m k sa sb a).sa = sa := rfl
@[simp] theorem State.construct_sb : (s.construct m k sa sb a).sb = sb := rfl
@[simp] theorem State.construct_arr : (s.construct m k sa sb a).arr = a := rfl
@[simp] theorem State.construct_inputs : (s.construct m k sa sb a).inputs = s.inputs := rfl
@[simp] theorem State.construct_responses : (s.construct m k sa sb a).responses = s.responses := rfl
@[simp] theorem State.construct_freeCount : (s.construct m k sa sb a).freeCount = s.freeCount := rfl
end construct

section reset
variable (s : State)
@[simp] theorem State.afterReset_build : s.afterReset.build = s.build := rfl
@[simp] theorem State.afterReset_valid : s.afterReset.valid = false := rfl
@[simp] theorem State.afterReset_inputs : s.afterReset.inputs = s.inputs := rfl
@[simp] theorem State.afterReset_responses : s.afterReset.responses = s.responses := rfl
@[simp] theorem State.afterReset_freeCount : s.afterReset.freeCount = s.freeCount + 1 := rfl
@[simp] theorem State.afterCutOff_build : s.afterCutOff.build = s.build := rfl
@[simp] theorem State.afterCutOff_valid : s.afterCutOff.valid = false := rfl
@[simp] theorem State.afterCutOff_inputs : s.afterCutOff.inputs = s.inputs := rfl
@[simp] theorem State.afterCutOff_freeCount : s.afterCutOff.freeCount = s.freeCount + 1 := rfl
theorem State.afterCutOff_arr : s.afterCutOff.arr = s.afterReset.arr := rfl
end reset

/-- The checks before a command: all it can answer (60 R161). -/
theorem State.checked_cases (s : State) (op : Opcode) (body : Result) :
    (implemented s.build op = false ∧ s.checked op body = s.raise .unsupported) ∨
    (implemented s.build op = true ∧ needsFilter op = true ∧ s.valid = false ∧ s.checked op body = s.raise .noFilter) ∨
    (implemented s.build op = true ∧ (needsFilter op = true → s.valid = true) ∧ s.checked op body = body) := by
  unfold State.checked
  cases implemented s.build op <;> cases needsFilter op <;> cases s.valid <;> simp

/-- A command that the build has and whose filter exists runs. -/
theorem State.checked_ready (s : State) (op : Opcode) (body : Result) (h : implemented s.build op = true)
    (hv : needsFilter op = true → s.valid = true) : s.checked op body = body := by
  rcases s.checked_cases op body with ⟨h1, -⟩ | ⟨-, h2, h3, -⟩ | ⟨-, -, h4⟩
  · rw [h] at h1; exact absurd h1 (by simp)
  · rw [hv h2] at h3; exact absurd h3 (by simp)
  · exact h4

end Sys2Proof.Machine
end

