-- ==== Sys2Proof/Laws/Exec.lean ====
section
/-! SUPPORT. What executing a command can do, said once: a condition with no effect, or a normal end whose new registers
and cells are named. -/

namespace Sys2Proof.Machine

/-- The normal end of command `i` on state `s`: the new state before its response, the code and the payload. -/
def normalEnd (i : Instr) (s : State) : State × Byte × List Byte :=
  match i with
  | .cfg m k sa sb => (s.construct m k sa sb [], codeOk, [])
  | .ins key => ({ s with arr := bumpAll s.build s.arr (s.posList key) }, codeOk, [])
  | .qry key => (s, if allSet s.arr (s.posList key) then codeOk else codeAbsent, [])
  | .rem key => ({ s with arr := decAll s.arr (s.posList key) }, codeOk, [])
  | .est => (s, codeOk, s.estPayload)
  | .idx i key => (s, codeOk, be 8 (s.pos key i.toNat))
  | .dump => (s, codeOk, s.image)
  | .load image =>
    (s.construct (imgM image) (imgK image) (imgSA image) (imgSB image) (imgCells s.build image), codeOk, [])
  | .uni image =>
    ({ s with arr := Memory.ofFn s.m.toNat (fun p => s.arr.read p ||| imgCell s.build image p) }, codeOk, [])
  | .int image =>
    ({ s with arr := Memory.ofFn s.m.toNat (fun p => s.arr.read p &&& imgCell s.build image p) }, codeOk, [])

/-- The operand checks of command `i` (60 R147 (4), (5)): the condition they raise, or none. -/
def operandCheck (i : Instr) (s : State) : Option Condition :=
  match i with
  | .cfg m k _ _ => if paramsOk s.build m k then none else some .invalidParameters
  | .ins _ => none
  | .qry _ => none
  | .rem key => if covers s.arr (s.posList key) then none else some .notPresent
  | .est => none
  | .idx i _ => if i.toNat < s.k.toNat then none else some .malformed
  | .dump => none
  | .load image => checkLoad s.build image
  | .uni image => s.checkOperand image
  | .int image => s.checkOperand image

/-- A command is the checks of R161, its operand checks, and its normal end. -/
theorem exec_eq (i : Instr) (s : State) :
    exec i s = s.checked i.opcode
      (match operandCheck i s with
      | some c => s.raise c
      | none => (normalEnd i s).1.finish (normalEnd i s).2.1 (normalEnd i s).2.2) := by
  cases i with
  | cfg m k sa sb =>
    simp only [exec, execCfg, operandCheck, normalEnd, Instr.opcode]
    split <;> rfl
  | idx i key =>
    simp only [exec, execIdx, operandCheck, normalEnd, Instr.opcode]
    split <;> rfl
  | rem key =>
    simp only [exec, execRem, operandCheck, normalEnd, Instr.opcode]
    split <;> rfl
  | ins | qry | est | dump | load | uni | int => rfl

/-- All that executing a command can answer. -/
theorem exec_cases (i : Instr) (s : State) :
    (∃ c, exec i s = s.raise c) ∨
    (implemented s.build i.opcode = true ∧ (needsFilter i.opcode = true → s.valid = true) ∧ operandCheck i s = none ∧
      exec i s = (normalEnd i s).1.finish (normalEnd i s).2.1 (normalEnd i s).2.2) := by
  rw [exec_eq]
  rcases s.checked_cases i.opcode _ with ⟨-, h⟩ | ⟨-, -, -, h⟩ | ⟨h1, h2, h⟩
  · exact .inl ⟨_, h⟩
  · exact .inl ⟨_, h⟩
  · rw [h]
    cases hc : operandCheck i s with
    | some c => exact .inl ⟨c, rfl⟩
    | none => exact .inr ⟨h1, h2, rfl, rfl⟩

/-- A command whose checks pass ends normally. -/
theorem exec_normal (i : Instr) (s : State) (h1 : implemented s.build i.opcode = true)
    (h2 : needsFilter i.opcode = true → s.valid = true) (h3 : operandCheck i s = none) :
    exec i s = .next ((normalEnd i s).1.respond (normalEnd i s).2.1 (normalEnd i s).2.2) := by
  rw [exec_eq, s.checked_ready _ _ h1 h2, h3]; rfl

/-- A normal end touches neither the channels nor the build nor the model's counter. -/
theorem normalEnd_frame (i : Instr) (s : State) :
    (normalEnd i s).1.build = s.build ∧ (normalEnd i s).1.inputs = s.inputs ∧
    (normalEnd i s).1.responses = s.responses ∧ (normalEnd i s).1.freeCount = s.freeCount := by
  cases i <;> exact ⟨rfl, rfl, rfl, rfl⟩

/-- A normal end's code is `OK` or `ABSENT`, and no condition's code is. -/
theorem normalEnd_code (i : Instr) (s : State) (c : Condition) : (normalEnd i s).2.1 ≠ c.code := by
  cases i <;> cases c <;> simp only [normalEnd] <;> (try split) <;> decide

theorem respFrame_inj (c d : Byte) (p q : List Byte) (h : respFrame c p = respFrame d q) : c = d := by
  simp only [respFrame, List.cons_append, List.cons.injEq] at h
  exact h.1

theorem respond_eq_answered (s : State) (c : Byte) (p : List Byte) :
    s.respond c p = s.answered (respFrame c p) := rfl

theorem respFrame_nil (c : Byte) : respFrame c [] = bare c := rfl

theorem lastResponse_answered (s : State) (r : List Byte) : (s.answered r).lastResponse = some r := by
  simp [State.answered, State.lastResponse]

theorem lastResponse_respond (s : State) (c : Byte) (p : List Byte) :
    (s.respond c p).lastResponse = some (respFrame c p) := lastResponse_answered s _

theorem inv_iff (s : State) : s.inv = true ↔
    s.build.ok = true ∧ s.arr.wf = true ∧
    (s.valid = true → paramsOk s.build s.m s.k = true ∧ s.arr.within s.m.toNat (cmax s.build) = true) := by
  simp only [State.inv, Bool.and_eq_true, Bool.or_eq_true, Bool.not_eq_true', and_assoc]
  cases s.valid <;> simp

/-- `ParamsOK` said in numbers (40 R65). -/
theorem paramsOk_iff (b : Build) (m : Word64) (k : Word32) : paramsOk b m k = true ↔
    1 ≤ m.toNat ∧ m.toNat ≤ b.mMax ∧ 1 ≤ k.toNat ∧ k.toNat ≤ b.kMax := by
  simp [paramsOk, and_assoc]

/-- The width of a cell is at least one bit in every legal build (R6). -/
theorem cw_pos (b : Build) (h : b.ok = true) : 1 ≤ b.cw := by
  simp only [Build.ok, Build.cwOk, Bool.and_eq_true] at h
  have := h.1.1.1.1.1.1
  cases hv : b.variant <;> simp_all
  omega

theorem cmax_baseline (b : Build) (h : b.ok = true) (hv : b.variant = .baseline) : cmax b = 1 := by
  simp only [Build.ok, Build.cwOk, Bool.and_eq_true, hv] at h
  simp_all [cmax]

theorem cmax_lt (b : Build) : cmax b < 2 ^ b.cw := by
  have := Nat.two_pow_pos b.cw
  unfold cmax; omega

/-- All that a command which answers `t` can have done: a condition and nothing else, or its normal end. -/
theorem exec_next_cases (i : Instr) (s t : State) (h : exec i s = .next t) :
    (∃ c : Condition, t = s.answered (bare c.code)) ∨
    (implemented s.build i.opcode = true ∧ (needsFilter i.opcode = true → s.valid = true) ∧ operandCheck i s = none ∧
      t = (normalEnd i s).1.answered (respFrame (normalEnd i s).2.1 (normalEnd i s).2.2)) := by
  rcases exec_cases i s with ⟨c, hc⟩ | ⟨h4, h5, h6, h7⟩
  · rw [hc] at h
    simp only [State.raise, Host.Outcome.next.injEq] at h
    exact .inl ⟨c, h.symm⟩
  · rw [h7] at h
    simp only [State.finish, Host.Outcome.next.injEq] at h
    exact .inr ⟨h4, h5, h6, h.symm⟩

/-- In a state of the invariant with a filter, the cells stay within R17 (b), and there are no cells from `M` on. -/
theorem arr_le (s : State) (h : s.inv = true) (hv : s.valid = true) (p : Nat) :
    s.arr.read p ≤ cmax s.build ∧ (s.m.toNat ≤ p → s.arr.read p = 0) := by
  obtain ⟨-, h2, h3⟩ := (inv_iff s).mp h
  exact (Memory.within_iff _ _ _ h2).mp (h3 hv).2 p

/-- The state after a raised condition meets the invariant when the state before does. -/
theorem inv_respond (s : State) (c : Byte) (p : List Byte) (h : s.inv = true) : (s.respond c p).inv = true := h

/-- A normal end keeps the invariant (10_state.md R17). -/
theorem inv_normalEnd (i : Instr) (s : State) (h : s.inv = true) (hi : implemented s.build i.opcode = true)
    (hf : needsFilter i.opcode = true → s.valid = true) (hc : operandCheck i s = none) :
    (normalEnd i s).1.inv = true := by
  obtain ⟨hb, hw, hv⟩ := (inv_iff s).mp h
  cases i with
  | qry | est | idx | dump => exact h
  | cfg m k sa sb =>
    simp only [operandCheck, ite_eq_left_iff, reduceCtorEq, imp_false, Decidable.not_not] at hc
    refine (inv_iff _).mpr ⟨hb, rfl, fun _ => ⟨hc, ?_⟩⟩
    simp [normalEnd, Memory.within]
  | ins key =>
    obtain ⟨hp, hin⟩ := hv (hf rfl)
    have hm := ((paramsOk_iff ..).mp hp).1
    refine (inv_iff _).mpr ⟨hb, wf_bumpAll _ _ _ hw, fun _ => ⟨hp, ?_⟩⟩
    rw [Memory.within_iff _ _ _ hw] at hin
    refine (Memory.within_iff _ _ _ (wf_bumpAll _ _ _ hw)).mpr fun q => ?_
    have hq := hin q
    have hlt : q ∈ s.posList key → q < s.m.toNat := s.posList_lt key hm q
    simp only [normalEnd]
    cases hvar : s.build.variant with
    | baseline =>
      rw [read_bumpAll_baseline _ hvar _ _ hw]
      have h1 := cmax_baseline _ hb hvar
      by_cases hmem : q ∈ s.posList key
      · have := hlt hmem
        simp only [hmem, if_true]; omega
      · simpa [hmem] using hq
    | counting =>
      rw [read_bumpAll_counting _ hvar _ _ hw]
      by_cases hmem : q ∈ s.posList key
      · have := hlt hmem
        simp only [hmem, if_true]; omega
      · simpa [hmem] using hq
  | rem key =>
    obtain ⟨hp, hin⟩ := hv (hf rfl)
    refine (inv_iff _).mpr ⟨hb, wf_decAll _ _ hw, fun _ => ⟨hp, ?_⟩⟩
    rw [Memory.within_iff _ _ _ hw] at hin
    refine (Memory.within_iff _ _ _ (wf_decAll _ _ hw)).mpr fun q => ?_
    have hq := hin q
    simp only [normalEnd, read_decAll _ _ hw]; omega
  | load image =>
    simp only [operandCheck, checkLoad] at hc
    split at hc
    · exact absurd hc (by simp)
    · next hp =>
      refine (inv_iff _).mpr ⟨hb, Memory.wf_ofFn _ _, fun _ => ⟨Bool.eq_true_of_not_eq_false hp, ?_⟩⟩
      refine (Memory.within_iff _ _ _ (Memory.wf_ofFn _ _)).mpr fun q => ?_
      simp only [normalEnd, imgCells, Memory.read_ofFn, State.construct_m, State.construct_build]
      split
      · exact ⟨imgCell_le _ _ _, fun hn => by omega⟩
      · exact ⟨Nat.zero_le _, fun _ => rfl⟩
  | uni image =>
    obtain ⟨hp, hin⟩ := hv (hf rfl)
    refine (inv_iff _).mpr ⟨hb, Memory.wf_ofFn _ _, fun _ => ⟨hp, ?_⟩⟩
    rw [Memory.within_iff _ _ _ hw] at hin
    refine (Memory.within_iff _ _ _ (Memory.wf_ofFn _ _)).mpr fun q => ?_
    simp only [normalEnd, Memory.read_ofFn]
    split
    · refine ⟨?_, fun hn => by omega⟩
      have h1 : s.arr.read q < 2 ^ s.build.cw := Nat.lt_of_le_of_lt (hin q).1 (cmax_lt _)
      have h2 : imgCell s.build image q < 2 ^ s.build.cw := Nat.lt_of_le_of_lt (imgCell_le _ _ _) (cmax_lt _)
      have h3 := Nat.or_lt_two_pow h1 h2
      unfold cmax; omega
    · exact ⟨Nat.zero_le _, fun _ => rfl⟩
  | int image =>
    obtain ⟨hp, hin⟩ := hv (hf rfl)
    refine (inv_iff _).mpr ⟨hb, Memory.wf_ofFn _ _, fun _ => ⟨hp, ?_⟩⟩
    rw [Memory.within_iff _ _ _ hw] at hin
    refine (Memory.within_iff _ _ _ (Memory.wf_ofFn _ _)).mpr fun q => ?_
    simp only [normalEnd, Memory.read_ofFn]
    split
    · exact ⟨Nat.le_trans Nat.and_le_left (hin q).1, fun hn => by omega⟩
    · exact ⟨Nat.zero_le _, fun _ => rfl⟩

/-- The reset input leaves a state of the invariant (70 R165). -/
theorem inv_afterReset (s : State) (h : s.inv = true) : s.afterReset.inv = true :=
  (inv_iff _).mpr ⟨((inv_iff s).mp h).1, Memory.wf_ofCells _, fun hv => absurd hv (by simp)⟩

/-- All that one step can do. -/
theorem step_cases (s t : State) (h : step s = .next t) :
    (s.inputs = [] ∧ t = s) ∨
    (∃ f rest e, s.inputs = .frame f :: rest ∧ decode s.build f = .error e ∧
      t = ({ s with inputs := rest } : State).respond Condition.malformed.code []) ∨
    (∃ f rest i, s.inputs = .frame f :: rest ∧ decode s.build f = .ok i ∧
      exec i { s with inputs := rest } = .next t) ∨
    (∃ rest, s.inputs = .reset :: rest ∧ t = ({ s with inputs := rest } : State).afterReset) ∨
    (∃ f rest, s.inputs = .cutOff f :: rest ∧ t = ({ s with inputs := rest } : State).afterCutOff) := by
  unfold step at h
  split at h
  · next hi => exact .inl ⟨hi, by simpa using h.symm⟩
  · next f rest hi =>
    unfold runFrame at h
    split at h
    · next e he => exact .inr (.inl ⟨f, rest, e, hi, he, by simpa [State.raise] using h.symm⟩)
    · next i he => exact .inr (.inr (.inl ⟨f, rest, i, hi, he, h⟩))
  · next rest hi => exact .inr (.inr (.inr (.inl ⟨rest, hi, by simpa using h.symm⟩)))
  · next f rest hi => exact .inr (.inr (.inr (.inr ⟨f, rest, hi, by simpa using h.symm⟩)))

end Sys2Proof.Machine
end

