-- ==== Sys2Proof/Laws/PerInstr.lean ====
section
/-! SUPPORT. Per-instruction law: the operands cut from the payload of a command are the command's (30_encoding.md
R50). -/

namespace Sys2Proof.Laws.OperandsOfPayload

/-- The payload of `i` gives `i` back, and its length is allowed for the opcode of `i` when `i` is well formed. -/
def Statement (i : Instr) : Prop :=
  operands i.opcode i.payload = i ∧ ∀ b : Build, i.wf b = true → lenAllowed b i.opcode i.payload.length = true

theorem cfg (m : Word64) (k : Word32) (sa sb : Word64) : Statement (.cfg m k sa sb) := by
  have h : ∀ (a b c d : List Byte), a.length = 8 → b.length = 4 → c.length = 8 → d.length = 8 →
      slice 0 8 (a ++ b ++ c ++ d) = a ∧ slice 8 4 (a ++ b ++ c ++ d) = b ∧
      slice 12 8 (a ++ b ++ c ++ d) = c ∧ slice 20 8 (a ++ b ++ c ++ d) = d := by
    intro a b c d ha hb hc hd
    have hda : ∀ n, 8 ≤ n → a.drop n = [] := fun n hn => List.drop_eq_nil_of_le (by omega)
    have hdb : ∀ n, 4 ≤ n → b.drop n = [] := fun n hn => List.drop_eq_nil_of_le (by omega)
    have hd8 : d.take 8 = d := List.take_of_length_le (by omega)
    simp [slice, List.drop_append, ha, hb, hc, hda, hdb, hd8]
  obtain ⟨h1, h2, h3, h4⟩ := h _ _ _ _ (be_length 8 m.toNat) (be_length 4 k.toNat) (be_length 8 sa.toNat)
    (be_length 8 sb.toNat)
  refine ⟨?_, fun b _ => by simp [Instr.opcode, Instr.payload, lenAllowed]⟩
  show Instr.cfg _ _ _ _ = _
  unfold Instr.payload
  rw [h1, h2, h3, h4, word64_be, word32_be, word64_be, word64_be]

theorem ins (key : List Byte) : Statement (.ins key) := ⟨rfl, fun _ h => h⟩

theorem qry (key : List Byte) : Statement (.qry key) := ⟨rfl, fun _ h => h⟩

theorem rem (key : List Byte) : Statement (.rem key) := ⟨rfl, fun _ h => h⟩

theorem est : Statement .est := ⟨rfl, fun _ _ => rfl⟩

theorem idx (i : Word32) (key : List Byte) : Statement (.idx i key) := by
  refine ⟨?_, fun b h => ?_⟩
  · have h4 : slice 0 4 (be 4 i.toNat ++ key) = be 4 i.toNat := by simp [slice]
    have hk : (be 4 i.toNat ++ key).drop 4 = key := by simp
    show Instr.idx _ _ = _
    unfold Instr.payload
    rw [h4, hk, word32_be]
  · simp only [Instr.wf, keyOk, decide_eq_true_eq] at h
    simp [Instr.opcode, Instr.payload, lenAllowed]; omega

theorem dump : Statement .dump := ⟨rfl, fun _ _ => rfl⟩

theorem load (image : List Byte) : Statement (.load image) :=
  ⟨rfl, fun _ h => (Bool.and_eq_true_iff.mp h).1⟩

theorem uni (image : List Byte) : Statement (.uni image) :=
  ⟨rfl, fun _ h => (Bool.and_eq_true_iff.mp h).1⟩

theorem int (image : List Byte) : Statement (.int image) :=
  ⟨rfl, fun _ h => (Bool.and_eq_true_iff.mp h).1⟩

end Sys2Proof.Laws.OperandsOfPayload
end

