-- ==== Sys2Proof/Tests/Slice0.lean ====
section
/-! SUPPORT. The model's own tests. Expected values come from spec/95_test_vectors.md (the vector is named) or from the
rule named; the witnesses at the end show that the hypotheses of each statement can be met. -/

namespace Sys2Proof.Tests

open Sys2Proof Sys2Proof.Machine

/-! Small states and readers of an outcome. -/

/-- Resident `M = 10, K = 3, SA = 0, SB = 1`, cells `[0,1,1,0,0,1,0,0,1,1]` (95, section 2.4). -/
def s10 : State :=
  { State.reset with
    valid := true, m := 10#64, k := 3#32, sb := 1#64, arr := [(1, 1), (2, 1), (5, 1), (8, 1), (9, 1)] }

/-- Counting, `M = 5, K = 2, SA = 0, SB = 1`, counters `[0,1,0,2,1]` (95, V-IMG-14). -/
def c5 : State :=
  { State.reset with
    build := Build.counting4, valid := true, m := 5#64, k := 2#32, sb := 1#64, arr := [(1, 1), (3, 2), (4, 1)] }

/-- `M = 1, K = 1`: the one cell is every key's position (41 R80 (a)). -/
def one (b : Build) (v : Nat) : State :=
  { State.reset with build := b, valid := true, m := 1#64, k := 1#32, arr := if v = 0 then [] else [(0, v)] }

/-- The header bytes `HDR` of 95, section 2.4. -/
def hdr : List Byte :=
  [0#8, 0#8, 0#8, 0#8, 0#8, 0#8, 0#8, 10#8] ++ [0#8, 0#8, 0#8, 3#8] ++ [0#8, 0#8, 0#8, 0#8, 0#8, 0#8, 0#8, 0#8] ++
    [0#8, 0#8, 0#8, 0#8, 0#8, 0#8, 0#8, 1#8]

/-- The frame of an image command. -/
def imgFrame (opc : Byte) (image : List Byte) : List Byte :=
  [opc, 0#8, 0#8, 0#8] ++ be 4 image.length ++ image

/-- One step on frame `f` delivers `r` and leaves a filter of `m` cells, `k` hashes and the cells `arr`. -/
def gives (s : State) (f r : List Byte) (m k : Nat) (arr : Memory) : Bool :=
  match step { s with inputs := [.frame f] } with
  | .next t => decide (t.responses = s.responses ++ [r]) && t.valid && t.m.toNat == m && t.k.toNat == k &&
      decide (t.arr = arr)
  | .fault _ => false
  | .refused _ => false

/-- The command answers a bare code and changes nothing. -/
def refuses (s : State) (i : Instr) (code : Byte) : Bool :=
  match exec i s with
  | .next t => decide (t = s.answered (bare code))
  | .fault _ => false
  | .refused _ => false

/-! WellFormed: one ill-formed term for each check. -/

theorem test_wf_key_too_long :
    (Instr.ins [1#8, 2#8]).wf { Build.default with keyMax := 1 } = false ∧
    (Instr.qry [1#8, 2#8]).wf { Build.default with keyMax := 1 } = false ∧
    (Instr.rem [1#8, 2#8]).wf { Build.default with keyMax := 1 } = false ∧
    (Instr.idx 0#32 [1#8, 2#8]).wf { Build.default with keyMax := 1 } = false := by decide

theorem test_wf_image_too_short :
    (Instr.load [1#8]).wf Build.default = false ∧ (Instr.uni (hdr.take 27)).wf Build.default = false ∧
    (Instr.int []).wf Build.default = false := by decide

theorem test_wf_image_too_long (image : List Byte) (h : image.length = 4294967296) :
    (Instr.load image).wf Build.default = false ∧ (Instr.uni image).wf Build.default = false ∧
    (Instr.int image).wf Build.default = false := by
  simp [Instr.wf, imageOk, h]

theorem test_build_illegal :
    ({ Build.default with cw := 2 } : Build).ok = false ∧ ({ Build.counting4 with cw := 1 } : Build).ok = false ∧
    ({ Build.counting4 with cw := 17 } : Build).ok = false ∧ ({ Build.default with mMax := 0 } : Build).ok = false ∧
    ({ Build.default with mMax := 2 ^ 40 } : Build).ok = false ∧ Build.counting4.ok = true := by decide

/-! Decode: a word of every row of the opcode table, written out from R46, R49, R50. -/

theorem test_decode_cfg :
    decode Build.default [0x01#8, 0#8, 0#8, 0#8, 0#8, 0#8, 0#8, 0x1C#8, 0#8, 0#8, 0#8, 0#8, 0#8, 0x10#8, 0#8, 0x01#8,
      0x80#8, 0#8, 0#8, 0x03#8, 0x01#8, 0x02#8, 0x03#8, 0x04#8, 0x05#8, 0x06#8, 0x07#8, 0x08#8,
      0xFF#8, 0#8, 0#8, 0#8, 0#8, 0#8, 0#8, 0xFE#8] =
      .ok (.cfg 0x0000000000100001#64 0x80000003#32 0x0102030405060708#64 0xFF000000000000FE#64) := by decide

theorem test_decode_keys :
    decode Build.default [0x02#8, 0#8, 0#8, 0#8, 0#8, 0#8, 0#8, 2#8, 2#8, 3#8] = .ok (.ins [2#8, 3#8]) ∧
    decode Build.default [0x03#8, 0#8, 0#8, 0#8, 0#8, 0#8, 0#8, 0#8] = .ok (.qry []) ∧
    decode Build.default [0x04#8, 0#8, 0#8, 0#8, 0#8, 0#8, 0#8, 1#8, 9#8] = .ok (.rem [9#8]) ∧
    decode Build.default [0x06#8, 0#8, 0#8, 0#8, 0#8, 0#8, 0#8, 6#8, 0#8, 0#8, 1#8, 2#8, 1#8, 4#8] =
      .ok (.idx 258#32 [1#8, 4#8]) := by decide

theorem test_decode_bare :
    decode Build.default [0x05#8, 0#8, 0#8, 0#8, 0#8, 0#8, 0#8, 0#8] = .ok .est ∧
    decode Build.default [0x07#8, 0#8, 0#8, 0#8, 0#8, 0#8, 0#8, 0#8] = .ok .dump := by decide

theorem test_decode_images :
    decode Build.default (imgFrame 0x08#8 (hdr ++ [0x64#8])) = .ok (.load (hdr ++ [0x64#8])) ∧
    decode Build.default (imgFrame 0x09#8 hdr) = .ok (.uni hdr) ∧
    decode Build.default (imgFrame 0x0A#8 hdr) = .ok (.int hdr) := by decide

/-- V-ENC-3 to V-ENC-11. -/
theorem test_decode_rejects :
    decode Build.default [0#8, 0#8, 0#8, 0#8, 0#8, 0#8, 0#8, 0#8] = .error .reservedOpcode ∧
    decode Build.default [0x0B#8, 0#8, 0#8, 0#8, 0#8, 0#8, 0#8, 0#8] = .error .reservedOpcode ∧
    decode Build.default [5#8, 0#8, 1#8, 0#8, 0#8, 0#8, 0#8, 0#8] = .error .reservedNotZero ∧
    decode Build.default [5#8, 0#8, 0#8, 0#8, 0#8, 0#8, 0#8, 1#8, 0#8] = .error .lenNotAllowed ∧
    decode Build.default ([1#8, 0#8, 0#8, 0#8, 0#8, 0#8, 0#8, 0x1B#8] ++ List.replicate 27 0#8) =
      .error .lenNotAllowed ∧
    decode Build.default [5#8, 0#8, 0#8] = .error .shortFrame ∧
    decode Build.default [2#8, 0#8, 0#8, 0#8, 0#8, 0#8, 0#8, 3#8, 2#8, 3#8] = .error .lengthMismatch ∧
    decode Build.default [6#8, 0#8, 0#8, 0#8, 0#8, 0#8, 0#8, 3#8, 0#8, 0#8, 0#8] = .error .lenNotAllowed ∧
    decode Build.default (imgFrame 0x09#8 (List.replicate 27 0#8)) = .error .lenNotAllowed := by decide

/-- The table's words: H is the big-endian header (R46); a LEN of 0 is no frame of IDX, LOAD, UNI, INT (R49). -/
theorem test_table_words :
    decodeTableWord 64 0x010000000000001C = some (.cfg 0#64 0#32 0#64 0#64) ∧
    decodeTableWord 64 0x0200000000000000 = some (.ins []) ∧
    decodeTableWord 64 0x0600000000000004 = some (.idx 0#32 []) ∧
    decodeTableWord 64 0x080000000000001C = some (.load (List.replicate 28 0#8)) ∧
    decodeTableWord 64 0x0900000000000000 = none := by decide

theorem test_step_runs_fetch_word :
    (match step (State.reset.withFetchWord 64 0x0500000000000000) with
    | .next t => decide (t = State.reset.answered (bare 0x06#8))
    | _ => false) = true := by decide

/-! The assembler (R56, R57). -/

theorem test_asm_lines :
    asmLine "IDX 2, x\"0104\"".toList = .command (.idx 2#32 [1#8, 4#8]) ∧
    asmLine "  QRY \"hi;,\" ; a comment".toList = .command (.qry [104#8, 105#8, 59#8, 44#8]) ∧
    asmLine "CFG 0xA, 3, 0, 1".toList = .command (.cfg 10#64 3#32 0#64 1#64) ∧
    asmLine "EST".toList = .command .est ∧ asmLine "; only a comment".toList = .blank ∧
    asmLine "INS 5".toList = .error := by decide

/-! Positions (95, section 2.3). -/

/-- V-IDX-1 to V-IDX-7. -/
theorem test_positions :
    (List.range 3).map (posOf 2#64 3#64 10) = [2, 5, 8] ∧ (List.range 3).map (posOf 1#64 4#64 10) = [1, 5, 9] ∧
    (List.range 4).map (posOf 5#64 9#64 1) = [0, 0, 0, 0] ∧ (List.range 5).map (posOf 1#64 1#64 3) = [1, 2, 0, 1, 2] ∧
    (List.range 3).map (posOf 7#64 20#64 10) = [7, 7, 7] ∧
    (List.range 3).map (posOf 0xFFFFFFFFFFFFFFFF#64 0xFFFFFFFFFFFFFFFF#64 10) = [5, 0, 5] ∧
    (List.range 4).map (posOf 0xFFFFFFFFFFFFFFFF#64 0xFFFFFFFFFFFFFFFF#64 7) = [1, 2, 3, 4] := by decide

/-- V-IDX-8, V-IDX-10, V-IDX-11. -/
theorem test_positions_wide :
    (List.range 4).map (posOf 0x8000000000000000#64 0x8000000000000001#64 1000) = [808, 617, 426, 235] ∧
    (List.range 2).map (posOf 1#64 2#64 5) = [1, 3] ∧ (List.range 2).map (posOf 3#64 1#64 5) = [3, 4] := by decide

/-! Cells (95, sections 1 and 2.5). -/

/-- E1: the source's scenario, and its answer for positions [2,4,9]. -/
theorem test_cells_baseline :
    bumpAll Build.default (bumpAll Build.default [] [2, 5, 8]) [1, 5, 9] = s10.arr ∧
    allSet s10.arr [2, 4, 9] = false ∧ allSet s10.arr [5, 8, 1] = true := by decide

/-- V-CNT-2, V-CNT-6, V-CNT-8, V-CNT-11. -/
theorem test_cells_increment :
    bumpAll Build.counting4 [(1, 1), (3, 1)] [1, 3] = [(1, 2), (3, 2)] ∧
    bumpAll Build.counting4 [(1, 15), (3, 15)] [1, 3] = [(1, 15), (3, 15)] ∧
    bumpAll Build.counting4 [] [0, 0, 0] = [(0, 3)] ∧ bumpAll Build.counting4 [(0, 14)] [0, 0, 0] = [(0, 15)] := by
  decide

/-- V-CNT-3, V-CNT-4, V-CNT-7, V-CNT-9, V-CNT-10. -/
theorem test_cells_decrement :
    decAll [(1, 1), (3, 1)] [1, 3] = [] ∧ covers [(1, 1)] [1, 3] = false ∧
    decAll [(1, 15), (3, 15)] [1, 3] = [(1, 14), (3, 14)] ∧ covers [(0, 2)] [0, 0, 0] = false ∧
    covers [(0, 3)] [0, 0, 0] = true ∧ decAll [(0, 3)] [0, 0, 0] = [] := by decide

/-! The image (95, section 2.6). -/

/-- V-IMG-1, V-IMG-3 to V-IMG-6. -/
theorem test_pack :
    pack Build.default 10 s10.arr = [0x64#8, 0xC0#8] ∧
    pack Build.default 8 (Memory.ofFn 8 (fun _ => 1)) = [0xFF#8] ∧
    pack Build.counting4 5 c5.arr = [0x01#8, 0x02#8, 0x10#8] ∧
    pack Build.counting4 5 [(3, 15), (4, 15)] = [0x00#8, 0x0F#8, 0xF0#8] ∧
    pack { Build.counting4 with cw := 3 } 3 [(0, 5), (1, 1), (2, 7)] = [0xA7#8, 0x80#8] := by decide

/-- R127 on V-IMG-6: cells that straddle bytes are read back. -/
theorem test_imgCell :
    (List.range 3).map (imgCell { Build.counting4 with cw := 3 } (hdr ++ [0xA7#8, 0x80#8])) = [5, 1, 7] := by decide

/-! One step on a frame. -/

/-- V-CFG-1 and V-CFG-7. -/
theorem test_cfg :
    gives State.reset [1#8, 0#8, 0#8, 0#8, 0#8, 0#8, 0#8, 0x1C#8, 0#8, 0#8, 0#8, 0#8, 0#8, 0#8, 0#8, 0x0A#8, 0#8, 0#8, 0#8,
      3#8, 0#8, 0#8, 0#8, 0#8, 0#8, 0#8, 0#8, 0#8, 0#8, 0#8, 0#8, 0#8, 0#8, 0#8, 0#8, 1#8]
      (bare 0#8) 10 3 [] = true ∧
    gives s10 (encode (.cfg 1#64 3#32 7#64 9#64))
      (bare 0#8) 1 3 [] = true := by decide

/-- V-CFG-2, V-CFG-3, V-CFG-4, V-CFG-6. -/
theorem test_cfg_refuses :
    refuses State.reset (.cfg 0#64 3#32 0#64 0#64) 3#8 = true ∧
    refuses State.reset (.cfg 10#64 0#32 0#64 0#64) 3#8 = true ∧
    refuses s10 (.cfg 1048577#64 3#32 0#64 0#64) 3#8 = true ∧ refuses s10 (.cfg 0#64 3#32 0#64 0#64) 3#8 = true := by
  decide

/-- The positions in a filter of one cell (R80 (a)). -/
theorem posList_one (s : State) (key : List Byte) (hm : s.m = 1#64) (hk : s.k = 1#32) : s.posList key = [0] := by
  simp [State.posList, State.pos, posOf, hm, hk, Nat.mod_one, List.range_succ]

/-- P4, steps 12 and 13: in a filter of one cell any key sets it. -/
theorem test_ins (key : List Byte) :
    exec (.ins key) (one Build.default 0) = .next ((one Build.default 1).answered (bare 0#8)) := by
  rw [exec_normal (.ins key) (one Build.default 0) rfl (fun _ => rfl) rfl]
  simp only [normalEnd, posList_one (one Build.default 0) key rfl rfl]; rfl

/-- P4, steps 11 and 13. -/
theorem test_qry (key : List Byte) :
    exec (.qry key) (one Build.default 0) = .next ((one Build.default 0).answered (bare 1#8)) ∧
    exec (.qry key) (one Build.default 1) = .next ((one Build.default 1).answered (bare 0#8)) := by
  constructor
  · rw [exec_normal (.qry key) (one Build.default 0) rfl (fun _ => rfl) rfl]
    simp only [normalEnd, posList_one (one Build.default 0) key rfl rfl]; rfl
  · rw [exec_normal (.qry key) (one Build.default 1) rfl (fun _ => rfl) rfl]
    simp only [normalEnd, posList_one (one Build.default 1) key rfl rfl]; rfl

/-- V-CNT-7 in a filter of one cell: a saturated counter is decremented. -/
theorem test_rem (key : List Byte) :
    exec (.rem key) (one Build.counting4 15) = .next ((one Build.counting4 14).answered (bare 0#8)) := by
  rw [exec_normal (.rem key) (one Build.counting4 15) rfl (fun _ => rfl) (by
    simp only [operandCheck, posList_one (one Build.counting4 15) key rfl rfl]; rfl)]
  simp only [normalEnd, posList_one (one Build.counting4 15) key rfl rfl]; rfl

/-- V-PRI-1, V-PRI-2, V-CNT-5. -/
theorem test_rem_refuses (key : List Byte) :
    exec (.rem key) State.reset = .next (State.reset.answered (bare 7#8)) ∧
    exec (.rem key) { State.reset with build := Build.counting4 } =
      .next (({ State.reset with build := Build.counting4 } : State).answered (bare 6#8)) ∧
    exec (.rem key) (one Build.counting4 0) = .next ((one Build.counting4 0).answered (bare 5#8)) := by
  refine ⟨rfl, rfl, ?_⟩
  rw [exec_eq, State.checked_ready _ _ _ rfl (fun _ => rfl)]
  simp only [operandCheck, posList_one (one Build.counting4 0) key rfl rfl]; rfl

/-- P3, step 14 (V-EST-2): the saturated corner. -/
theorem test_est_saturated :
    gives { s10 with arr := Memory.ofFn 10 (fun _ => 1) } [5#8, 0#8, 0#8, 0#8, 0#8, 0#8, 0#8, 0#8]
      [0#8, 0#8, 0#8, 0#8, 0#8, 0#8, 0#8, 0x18#8, 0#8, 0#8, 0#8, 0#8, 0#8, 0#8, 0#8, 0x0A#8,
        0x7F#8, 0xF0#8, 0#8, 0#8, 0#8, 0#8, 0#8, 0#8, 0x3F#8, 0xF0#8, 0#8, 0#8, 0#8, 0#8, 0#8, 0#8] 10 3 (Memory.ofFn 10 (fun _ => 1)) = true := by decide

/-- V-EST-3, V-EST-6: `ONES`. -/
theorem test_est_ones : s10.ones = 5 ∧ ({ c5 with arr := [(3, 1), (4, 1)] } : State).ones = 2 := by decide

/-- 41 R80 (a), with the response layout of V-IDX-16. -/
theorem test_idx (key : List Byte) :
    exec (.idx 0#32 key) (one Build.default 0) = .next ((one Build.default 0).answered
      [0#8, 0#8, 0#8, 0#8, 0#8, 0#8, 0#8, 8#8, 0#8, 0#8, 0#8, 0#8, 0#8, 0#8, 0#8, 0#8]) := by
  rw [exec_normal (.idx 0#32 key) (one Build.default 0) rfl (fun _ => rfl) rfl]
  have : (one Build.default 0).pos key 0 = 0 := by simp [State.pos, posOf, one, Nat.mod_one]
  simp only [normalEnd, BitVec.toNat_ofNat, Nat.zero_mod, this]; rfl

/-- V-IDX-14, V-IDX-15. -/
theorem test_idx_refuses :
    refuses s10 (.idx 3#32 [1#8, 4#8]) 2#8 = true ∧ refuses State.reset (.idx 0#32 []) 6#8 = true := by decide

/-- V-IMG-7, V-IMG-14. -/
theorem test_dump :
    gives s10 [7#8, 0#8, 0#8, 0#8, 0#8, 0#8, 0#8, 0#8]
      ([0#8, 0#8, 0#8, 0#8, 0#8, 0#8, 0#8, 0x1E#8] ++ hdr ++ [0x64#8, 0xC0#8]) 10 3 s10.arr = true ∧
    gives c5 [7#8, 0#8, 0#8, 0#8, 0#8, 0#8, 0#8, 0#8]
      ([0#8, 0#8, 0#8, 0#8, 0#8, 0#8, 0#8, 0x1F#8] ++
        [0#8, 0#8, 0#8, 0#8, 0#8, 0#8, 0#8, 5#8, 0#8, 0#8, 0#8, 2#8, 0#8, 0#8, 0#8, 0#8, 0#8, 0#8, 0#8, 0#8,
          0#8, 0#8, 0#8, 0#8, 0#8, 0#8, 0#8, 1#8, 1#8, 2#8, 0x10#8]) 5 2 c5.arr = true := by decide

/-- V-IMG-8. -/
theorem test_load :
    gives State.reset (imgFrame 8#8 (hdr ++ [0x64#8, 0xC0#8]))
      (bare 0#8) 10 3 s10.arr = true := by
  decide

/-- V-IMG-9, V-IMG-10, V-IMG-11, V-PRI-6. -/
theorem test_load_refuses :
    refuses s10 (.load (List.replicate 28 0#8)) 3#8 = true ∧ refuses s10 (.load (hdr ++ [0xFF#8])) 2#8 = true ∧
    refuses s10 (.load (hdr ++ [0xFF#8, 0xC1#8])) 2#8 = true ∧
    refuses State.reset (.load (List.replicate 33 0#8)) 3#8 = true := by decide

/-- V-UNI-1. -/
theorem test_uni :
    gives { s10 with arr := [(2, 1), (5, 1), (8, 1)] } (imgFrame 9#8 (hdr ++ [0x44#8, 0x40#8]))
      (bare 0#8) 10 3 s10.arr = true := by decide

/-- V-UNI-2 to V-UNI-5, V-INT-4, V-CNT-14. -/
theorem test_uni_refuses :
    refuses { s10 with k := 4#32 } (.uni (hdr ++ [0x44#8, 0x40#8])) 4#8 = true ∧
    refuses s10 (.uni (hdr ++ [0x44#8, 0x41#8])) 2#8 = true ∧ refuses s10 (.uni (hdr ++ [0x44#8])) 2#8 = true ∧
    refuses { s10 with sb := 2#64 } (.uni (hdr ++ [0x44#8])) 4#8 = true ∧
    refuses State.reset (.uni (hdr ++ [0x44#8, 0x40#8])) 6#8 = true ∧ refuses c5 (.uni hdr) 7#8 = true := by decide

/-- V-INT-1, V-INT-2. -/
theorem test_int :
    gives s10 (imgFrame 10#8 (hdr ++ [0x44#8, 0x40#8]))
      (bare 0#8) 10 3 [(1, 1), (5, 1), (9, 1)] = true ∧
    gives s10 (imgFrame 10#8 (hdr ++ [0x24#8, 0x80#8]))
      (bare 0#8) 10 3 [(2, 1), (5, 1), (8, 1)] = true := by decide

/-- V-INT-3, V-CNT-14. -/
theorem test_int_refuses :
    refuses { s10 with build := { Build.default with hasIntersect := false } } (.int hdr) 7#8 = true ∧
    refuses c5 (.int hdr) 7#8 = true := by decide

/-- V-RST-1: after a reset input a query answers `NoFilter`. -/
theorem test_reset_input :
    (match runSteps 2 { s10 with inputs := [.reset, .frame [3#8, 0#8, 0#8, 0#8, 0#8, 0#8, 0#8, 1#8, 0#8]] } with
    | .next t => decide (t.lastResponse = some (bare 6#8)) && decide (t.responses.length = 1)
    | _ => false) = true := by decide

/-- 10_state.md R15: the derived status of the source's array, of an empty and of a saturated filter. -/
theorem test_status :
    s10.isPopulated = true ∧ s10.isEmpty = false ∧ s10.isSaturated = false ∧
    (one Build.default 0).isEmpty = true ∧ (one Build.default 1).isSaturated = true ∧
    State.reset.isEmpty = false := by decide

/-! Witnesses: states and operands that meet the hypotheses of the statements. -/

theorem witness_DecodeOfEncodeIsTheCommand :
    Build.default.ok = true ∧ (Instr.load hdr).wf Build.default = true ∧
    (Instr.ins []).wf { Build.default with keyMax := 0 } = true ∧ ({ Build.default with keyMax := 0 } : Build).ok = true := by
  decide

theorem witness_DecodedFrameIsItsEncoding :
    decode { Build.default with keyMax := 1 } [6#8, 0#8, 0#8, 0#8, 0#8, 0#8, 0#8, 5#8, 0#8, 0#8, 0#8, 0#8, 9#8] =
      .ok (.idx 0#32 [9#8]) := by decide

/-- One frame for each of the four clauses, at the boundaries `0x00` and `0x0B` of the reserved opcodes. -/
theorem witness_ReservedFramesAreMalformed :
    (∃ o, ([0#8, 1#8] : List Byte).head? = some o ∧ (o = 0x00#8 ∨ 0x0B ≤ o.toNat)) ∧
    (∃ o, ([0x0B#8] : List Byte).head? = some o ∧ (o = 0x00#8 ∨ 0x0B ≤ o.toNat)) ∧
    (∃ x ∈ (([5#8, 0#8, 1#8, 0#8, 0#8, 0#8, 0#8, 0#8] : List Byte).drop 1).take 3, x ≠ 0#8) ∧
    (∃ o op, ([5#8, 0#8, 0#8, 0#8, 0#8, 0#8, 0#8, 1#8, 0#8] : List Byte).head? = some o ∧ Opcode.ofByte o = some op ∧
      lenAllowed Build.default op (fromBe ((([5#8, 0#8, 0#8, 0#8, 0#8, 0#8, 0#8, 1#8, 0#8] : List Byte).drop 4).take 4)) =
        false) ∧
    (∀ x ∈ List.replicate 9 0#8, x = 0#8) ∧
    ({ s10 with inputs := [.frame [0x0B#8]] } : State).inputs = .frame [0x0B#8] :: [] :=
  ⟨⟨_, rfl, by decide⟩, ⟨_, rfl, by decide⟩, ⟨1#8, by decide, by decide⟩, ⟨5#8, .est, rfl, rfl, by decide⟩, by decide, rfl⟩

/-- The frame of a query, decoded in any state of the default build. -/
theorem witness_StepRunsTheDecodedCommand :
    ({ s10 with inputs := [.frame (encode (.qry []))] } : State).inputs = .frame (encode (.qry [])) :: [] ∧
    decode s10.build (encode (.qry [])) = .ok (.qry []) := by decide

theorem witness_OneResponsePerCommandFrame :
    ∃ t, ({ s10 with inputs := [.frame (encode .dump)] } : State).inv = true ∧
      step { s10 with inputs := [.frame (encode .dump)] } = .next t := ⟨_, by decide, rfl⟩

theorem witness_StepKeepsTheInvariant : ∃ t, c5.inv = true ∧ step c5 = .next t := ⟨_, by decide, rfl⟩

theorem witness_StepTakesInputsInOrder :
    ∃ t, step { s10 with inputs := [.cutOff [], .reset] } = .next t := ⟨_, rfl⟩

theorem witness_ConditionsLeaveNoTrace :
    ∃ t, exec .est State.reset = .next t ∧ EndedWithCondition t := ⟨_, rfl, .noFilter, rfl⟩

/-- One state and command for each clause. -/
theorem witness_ConditionPriority :
    (({ s10 with inputs := [.frame []] } : State).inputs = [.frame []] ∧ decode s10.build [] = .error .shortFrame) ∧
    implemented c5.build (Instr.uni hdr).opcode = false ∧
    (implemented State.reset.build (Instr.qry []).opcode = true ∧ needsFilter (Instr.qry []).opcode = true ∧
      State.reset.valid = false) ∧
    paramsOk s10.build 0#64 1#32 = false ∧ paramsOk s10.build (imgM []) (imgK []) = false ∧
    (paramsOk s10.build (imgM hdr) (imgK hdr) = true ∧ imgLenOk s10.build (imgM hdr).toNat hdr = false) ∧
    (paramsOk s10.build (imgM (hdr ++ [0#8, 1#8])) (imgK (hdr ++ [0#8, 1#8])) = true ∧
      imgLenOk s10.build (imgM (hdr ++ [0#8, 1#8])).toNat (hdr ++ [0#8, 1#8]) = true ∧
      imgPaddingOk s10.build (imgM (hdr ++ [0#8, 1#8])).toNat (hdr ++ [0#8, 1#8]) = false) ∧
    (implemented s10.build (Instr.int hdr).opcode = true ∧ s10.valid = true ∧ ¬ (imgM [] = s10.m)) ∧
    (imgM hdr = s10.m ∧ imgK hdr = s10.k ∧ imgSA hdr = s10.sa ∧ imgSB hdr = s10.sb ∧
      imgLenOk s10.build s10.m.toNat hdr = false) ∧
    s10.k.toNat ≤ (3#32 : Word32).toNat := by decide

/-- The last clause of `ConditionPriority`, and the two cases of `RemIsAllOrNothing`. -/
theorem witness_RemIsAllOrNothing :
    ((one Build.counting4 0).build.variant = .counting ∧ (one Build.counting4 0).valid = true ∧
      (∃ t, exec (.rem []) (one Build.counting4 0) = .next t) ∧
      ∃ p ∈ (one Build.counting4 0).posList [], (one Build.counting4 0).arr.read p < (one Build.counting4 0).mult [] p) ∧
    ∃ t, exec (.rem []) (one Build.counting4 15) = .next t := by
  refine ⟨⟨rfl, rfl, ⟨_, (test_rem_refuses []).2.2⟩, 0, ?_, ?_⟩, ⟨_, test_rem []⟩⟩
  · rw [posList_one _ _ rfl rfl]; simp
  · rw [State.mult, posList_one _ _ rfl rfl]; decide

theorem witness_CommandsEndOnlyWithTheirCodes : ∃ t, exec (.int hdr) c5 = .next t := ⟨_, rfl⟩

theorem witness_NoFilterBeforeConstruction :
    (State.reset.valid = false ∧ implemented State.reset.build (Instr.est).opcode = true ∧
      (∀ m k sa sb, Instr.est ≠ .cfg m k sa sb) ∧ ∀ image, Instr.est ≠ .load image) ∧
    (∃ t, exec (.cfg 0#64 0#32 0#64 0#64) State.reset = .next t) ∧ ∃ t, exec (.load hdr) State.reset = .next t :=
  ⟨⟨rfl, rfl, by simp, by simp⟩, ⟨_, rfl⟩, ⟨_, rfl⟩⟩

/-- Each of the three rows on the right holds somewhere, and an ordinary command on the left. -/
theorem witness_UnsupportedCommands :
    (∃ t, exec (.rem []) s10 = .next t ∧ s10.build.variant = .baseline) ∧
    (∃ t, exec (.uni []) c5 = .next t ∧ c5.build.variant = .counting) ∧
    (∃ t, exec (.int []) { s10 with build := { Build.default with hasIntersect := false } } = .next t) ∧
    ∃ t, exec .est s10 = .next t := ⟨⟨_, rfl, rfl⟩, ⟨_, rfl, rfl⟩, ⟨_, rfl⟩, ⟨_, rfl⟩⟩

theorem witness_ResetInputDestroysTheFilter :
    ({ s10 with inputs := [.reset] } : State).inputs = .reset :: [] ∧
    ({ s10 with inputs := [.cutOff [7#8]] } : State).inputs = .cutOff [7#8] :: [] := by decide

theorem witness_HiddenRegistersNeverShow :
    SameButHidden State.reset { State.reset with m := 9#64, arr := [(4, 7)] } ∧
    ∃ t, runSteps 2 State.reset = .next t := ⟨⟨rfl, rfl⟩, ⟨_, rfl⟩⟩

/-- The boundaries `m = M_MAX`, `k = K_MAX` and `m = k = 1`. -/
theorem witness_CfgConstructsAnEmptyFilter :
    (1 ≤ (1048576#64 : Word64).toNat ∧ (1048576#64 : Word64).toNat ≤ State.reset.build.mMax ∧
      1 ≤ (0xFFFFFFFF#32 : Word32).toNat ∧ (0xFFFFFFFF#32 : Word32).toNat ≤ State.reset.build.kMax) ∧
    1 ≤ (1#64 : Word64).toNat ∧ (1#64 : Word64).toNat ≤ State.reset.build.mMax := by decide

/-- Each of the four clauses; `k > K_MAX` needs a build with a smaller `K_MAX`. -/
theorem witness_CfgRefusesBadParameters :
    (0#64 : Word64).toNat = 0 ∧ State.reset.build.mMax < (1048577#64 : Word64).toNat ∧ (0#32 : Word32).toNat = 0 ∧
    ({ Build.default with kMax := 7 } : Build).kMax < (8#32 : Word32).toNat := by decide

theorem witness_ParametersChangeOnlyByConstruction :
    (∃ t, exec (.cfg 1#64 1#32 5#64 6#64) s10 = .next t) ∧ ∃ t, exec (.uni hdr) s10 = .next t := ⟨⟨_, rfl⟩, ⟨_, rfl⟩⟩

/-- `n = 1, p = 1/2` (V-SZ-2) meets the premises of `CREATE`. -/
theorem witness_CreateSendsPositiveSizes :
    ∃ i, Creates 1 (1 / 2) 0#64 0#64 (.ok i) := by
  have h1 := Real.log_two_gt_d9
  have h2 := Real.log_two_lt_d9
  have hm : IsSizeM 1 (1 / 2) 2 := by
    unfold IsSizeM
    have hl : Real.log (1 / 2) = -Real.log 2 := by rw [one_div, Real.log_inv]
    have hpos : 0 < Real.log 2 ^ 2 := by positivity
    symm
    rw [Nat.ceil_eq_iff (by norm_num), hl]
    push_cast
    constructor
    · rw [lt_div_iff₀ hpos]; nlinarith
    · rw [div_le_iff₀ hpos]; nlinarith
  have hk : IsSizeK 1 2 1 := by
    unfold IsSizeK
    have : round ((2 : ℝ) / 1 * Real.log 2) = 1 := by
      rw [round_eq, Int.floor_eq_iff]
      push_cast
      constructor <;> linarith
    push_cast
    rw [this]; decide
  exact ⟨_, .inr ⟨⟨by norm_num, by norm_num, by norm_num⟩, 2, 1, hm, hk, (if_pos (by decide)).symm⟩⟩

/-- The invariant and a filter: `PositionListOfAKey`, `RedundantPositions`, `IdxAnswersThePosition`,
`EstReportsOnesAndCorners`, `OnesIsTheListedLength`, `DumpPacksTheArray`, `QryTestsEveryPosition`, `InsSetsTheBits`,
and for the counting build `InsCountsUpToTheMaximum`. -/
theorem witness_invariant_and_filter :
    s10.inv = true ∧ s10.valid = true ∧ s10.build.variant = .baseline ∧ (2#32 : Word32).toNat < s10.k.toNat ∧
    c5.inv = true ∧ c5.valid = true ∧ c5.build.variant = .counting := by decide

/-- The antecedents inside `RedundantPositions`: `M = 1`, `K > M`, `h_b mod M = 0` (which `M = 1` forces), `SA = SB`. -/
theorem witness_RedundantPositions :
    (one Build.default 0).inv = true ∧ (one Build.default 0).m.toNat = 1 ∧
    (∀ key, ((one Build.default 0).hashB key).toNat % (one Build.default 0).m.toNat = 0) ∧
    (one Build.default 0).sa = (one Build.default 0).sb ∧
    ({ s10 with m := 2#64, arr := [] } : State).inv = true ∧
    ({ s10 with m := 2#64, arr := [] } : State).m.toNat < ({ s10 with m := 2#64, arr := [] } : State).k.toNat :=
  ⟨by decide, rfl, fun key => Nat.mod_one _, rfl, by decide, by decide⟩

/-- The three cases of the count in `EstReportsOnesAndCorners`: 0, M and between. -/
theorem witness_EstReportsOnesAndCorners :
    (one Build.default 0).ones = 0 ∧ (one Build.default 1).ones = (one Build.default 1).m.toNat ∧
    0 < s10.ones ∧ s10.ones < s10.m.toNat := by decide

/-- Both answers of `QryTestsEveryPosition` occur. -/
theorem witness_QryTestsEveryPosition :
    (∀ p ∈ (one Build.default 1).posList [], 0 < (one Build.default 1).arr.read p) ∧
    ∃ p ∈ (one Build.default 0).posList [], (one Build.default 0).arr.read p = 0 := by
  rw [posList_one _ _ rfl rfl, posList_one _ _ rfl rfl]; decide

theorem witness_InsIsIdempotentAndDenser :
    ∃ t u, s10.inv = true ∧ s10.valid = true ∧ s10.build.variant = .baseline ∧
      exec (.ins []) s10 = .next t ∧ exec (.ins []) t = .next u := ⟨_, _, by decide, rfl, rfl, rfl, rfl⟩

/-- An insertion, a query of another key between, and the query of the inserted key. -/
theorem witness_NoFalseNegatives :
    ∃ s1 s2 : State,
      ({ s10 with inputs := [.frame (encode (.ins [1#8])), .frame (encode .est), .frame (encode (.qry [1#8]))] } :
        State).inv = true ∧
      decode s10.build (encode (.ins [1#8])) = .ok (.ins [1#8]) ∧
      step { s10 with inputs := [.frame (encode (.ins [1#8])), .frame (encode .est), .frame (encode (.qry [1#8]))] } =
        .next s1 ∧
      s1.lastResponse = some (bare 0#8) ∧ Relation.ReflTransGen CalmStep s1 s2 ∧
      s2.inputs = [.frame (encode (.qry [1#8]))] ∧ decode s2.build (encode (.qry [1#8])) = .ok (.qry [1#8]) := by
  refine ⟨_, _, by decide, by decide, rfl, lastResponse_respond _ _ _, .single ⟨rfl, _, _, rfl, .inl ⟨.est, ?_, rfl⟩⟩,
    rfl, ?_⟩
  · show decode Build.default (encode .est) = _; decide
  · show decode Build.default (encode (.qry [1#8])) = _; decide

theorem witness_QueriesAreDeterministic :
    ∃ s1 s2 s3, exec (.qry []) s10 = .next s1 ∧ Relation.ReflTransGen SilentExec s1 s2 ∧
      exec (.qry []) s2 = .next s3 := ⟨_, _, _, rfl, .single ⟨.dump, rfl, rfl⟩, rfl⟩

theorem witness_UnionKeepsBothMemberships :
    s10.inv = true ∧ ({ s10 with arr := [(0, 1)] } : State).inv = true ∧ s10.valid = true ∧
    exec (.qry []) (one Build.default 1) = .next ((one Build.default 1).answered (bare 0#8)) :=
  ⟨by decide, by decide, rfl, (test_qry []).2⟩

theorem witness_SaturatedFilterAnswersPresent :
    (one Build.default 1).inv = true ∧ (one Build.default 1).isSaturated = true := by decide

theorem witness_EmptyFilterHasNoMember :
    (one Build.counting4 0).inv = true ∧ (one Build.counting4 0).isEmpty = true ∧
    (one Build.counting4 0).build.variant = .counting := by decide

theorem witness_ReadersChangeNothing :
    ∃ t u, exec .dump s10 = .next t ∧ exec .dump t = .next u := ⟨_, _, rfl, rfl⟩

theorem witness_FprEstimateSimplifies :
    ∃ x y : ℝ, (1 : ℕ) ≤ 10 ∧ (1 : ℕ) ≤ 3 ∧ (5 : ℕ) < 10 ∧ IsIdealCard 10 3 5 x ∧ IsFprOf 10 3 x y :=
  ⟨_, _, by norm_num, by norm_num, by norm_num, rfl, rfl⟩

/-- V-UNI-1's image, for `UniIsTheBitwiseOr` and `IntIsTheBitwiseAnd`; `M = 8` has no padding. -/
theorem witness_UniIsTheBitwiseOr :
    s10.inv = true ∧ s10.valid = true ∧ s10.build.variant = .baseline ∧ s10.build.hasIntersect = true ∧
    imgM (hdr ++ [0x44#8, 0x40#8]) = s10.m ∧ imgK (hdr ++ [0x44#8, 0x40#8]) = s10.k ∧
    imgSA (hdr ++ [0x44#8, 0x40#8]) = s10.sa ∧ imgSB (hdr ++ [0x44#8, 0x40#8]) = s10.sb ∧
    (hdr ++ [0x44#8, 0x40#8]).length = 28 + (s10.m.toNat + 7) / 8 ∧
    (∀ j, s10.m.toNat ≤ j → j < 8 * ((s10.m.toNat + 7) / 8) →
      ((hdr ++ [0x44#8, 0x40#8]).getD (28 + j / 8) 0#8).getLsbD (7 - j % 8) = false) := by
  refine ⟨by decide, rfl, rfl, rfl, by decide, by decide, by decide, by decide, by decide, fun j h1 h2 => ?_⟩
  have h1' : 10 ≤ j := h1
  have h2' : j < 16 := h2
  interval_cases j <;> decide

theorem witness_BaselineBitsNeverClear :
    ∃ t, s10.inv = true ∧ s10.build.variant = .baseline ∧ s10.valid = true ∧ exec (.ins []) s10 = .next t ∧
      (∀ m k sa sb, Instr.ins [] ≠ .cfg m k sa sb) ∧ (∀ image, Instr.ins [] ≠ .load image) ∧
      ∀ image, Instr.ins [] ≠ .int image := ⟨_, by decide, rfl, rfl, rfl, by simp, by simp, by simp⟩

/-- A saturated counter targeted once, and one at its multiplicity. -/
theorem witness_RemLowersByMultiplicity :
    ((one Build.counting4 15).inv = true ∧ ∀ p, (one Build.counting4 15).mult [] p ≤ (one Build.counting4 15).arr.read p) ∧
    (one Build.counting4 1).inv = true ∧ ∀ p, (one Build.counting4 1).mult [] p ≤ (one Build.counting4 1).arr.read p := by
  have h : ∀ v, v ≠ 0 → ∀ p, (one Build.counting4 v).mult [] p ≤ (one Build.counting4 v).arr.read p := by
    intro v hv p
    rw [State.mult, posList_one _ _ rfl rfl]
    by_cases hp : p = 0
    · subst hp; simp [one, hv, Memory.read]; omega
    · simp [Ne.symm hp]
  exact ⟨⟨by decide, h 15 (by decide)⟩, by decide, h 1 (by decide)⟩

/-- A counter one below the maximum, targeted once. -/
theorem witness_RemUndoesIns :
    (one Build.counting4 14).inv = true ∧ (one Build.counting4 14).valid = true ∧
    (one Build.counting4 14).build.variant = .counting ∧
    ∀ p, (one Build.counting4 14).arr.read p + (one Build.counting4 14).mult [] p ≤
      2 ^ (one Build.counting4 14).build.cw - 1 := by
  refine ⟨by decide, rfl, rfl, fun p => ?_⟩
  rw [State.mult, posList_one _ _ rfl rfl]
  by_cases hp : p = 0
  · subst hp; decide
  · simp [Ne.symm hp, one, Memory.read, Build.counting4]

theorem witness_LoadReadsTheArray :
    State.reset.build.ok = true ∧ 1 ≤ (imgM (hdr ++ [0x64#8, 0xC0#8])).toNat ∧
    (imgM (hdr ++ [0x64#8, 0xC0#8])).toNat ≤ State.reset.build.mMax ∧ 1 ≤ (imgK (hdr ++ [0x64#8, 0xC0#8])).toNat ∧
    (imgK (hdr ++ [0x64#8, 0xC0#8])).toNat ≤ State.reset.build.kMax ∧
    (hdr ++ [0x64#8, 0xC0#8]).length =
      28 + ((imgM (hdr ++ [0x64#8, 0xC0#8])).toNat * State.reset.build.cw + 7) / 8 ∧
    (∀ j, (imgM (hdr ++ [0x64#8, 0xC0#8])).toNat * State.reset.build.cw ≤ j →
      j < 8 * ((hdr ++ [0x64#8, 0xC0#8]).length - 28) →
      ((hdr ++ [0x64#8, 0xC0#8]).getD (28 + j / 8) 0#8).getLsbD (7 - j % 8) = false) := by
  refine ⟨by decide, by decide, by decide, by decide, by decide, by decide, fun j h1 h2 => ?_⟩
  have h0 : (imgM (hdr ++ [0x64#8, 0xC0#8])).toNat * State.reset.build.cw = 10 := by decide
  have h3 : 8 * ((hdr ++ [0x64#8, 0xC0#8]).length - 28) = 16 := by decide
  rw [h0] at h1
  rw [h3] at h2
  interval_cases j <;> decide

theorem witness_DumpThenLoadRestoresTheFilter :
    c5.inv = true ∧ c5.valid = true ∧ c5.m.toNat ≤ Build.counting4.mMax ∧ c5.k.toNat ≤ Build.counting4.kMax := by decide

theorem witness_LoadThenDumpReturnsTheImage :
    ∃ t, State.reset.build.ok = true ∧ exec (.load (hdr ++ [0x64#8, 0xC0#8])) State.reset = .next t ∧
      t.lastResponse = some (bare 0#8) := ⟨_, by decide, rfl, by decide⟩

end Sys2Proof.Tests
end

/-! Encoding: what a frame that decodes looks like (R46, R49, R53), and what follows for every other frame (R54). -/

namespace Sys2Proof

/-- No command has the reserved opcode `0x00` (R54). -/
theorem Opcode.code_ne_zero (op : Opcode) : op.code ≠ 0#8 := by cases op <;> decide

/-- No command has a reserved opcode from `0x0B` on (R54). -/
theorem Opcode.code_toNat_lt (op : Opcode) : op.code.toNat < 0x0B := by cases op <;> decide

/-- Inversion of `decode`: the five checks of R53, read off a frame that passes them. -/
theorem frame_of_decode_ok {b : Build} {f : List Byte} {i : Instr} (h : decode b f = .ok i) :
    ∃ op len payload, f = op.code :: 0#8 :: 0#8 :: 0#8 :: (len ++ payload) ∧ len.length = 4 ∧
      payload.length = fromBe len ∧ lenAllowed b op payload.length = true ∧ operands op payload = i := by
  unfold decode at h
  split at h
  · next o r1 r2 r3 l3 l2 l1 l0 payload =>
    split at h
    · next hzero =>
      obtain ⟨rfl, rfl, rfl⟩ := hzero
      split at h
      · next hlen =>
        split at h
        · cases h
        · next op hop =>
          split at h
          · next hallowed =>
            cases code_of_ofByte o op hop
            cases h
            exact ⟨op, [l3, l2, l1, l0], payload, rfl, rfl, hlen, hallowed, rfl⟩
          · cases h
      · cases h
    · cases h
  · cases h

section
variable {b : Build} {f : List Byte} {i : Instr}

theorem head_of_decode_ok (h : decode b f = .ok i) : ∃ op : Opcode, f.head? = some op.code := by
  obtain ⟨op, len, payload, rfl, -⟩ := frame_of_decode_ok h
  exact ⟨op, rfl⟩

theorem reserved_bytes_of_decode_ok (h : decode b f = .ok i) : ∀ x ∈ (f.drop 1).take 3, x = 0#8 := by
  obtain ⟨op, len, payload, rfl, -⟩ := frame_of_decode_ok h
  simp

theorem lenAllowed_of_decode_ok {o : Byte} {op : Opcode} (h : decode b f = .ok i) (hhead : f.head? = some o)
    (hop : Opcode.ofByte o = some op) : lenAllowed b op (fromBe ((f.drop 4).take 4)) = true := by
  obtain ⟨op', len, payload, rfl, hlen, hpayload, hallowed, -⟩ := frame_of_decode_ok h
  have hfield : ((op'.code :: 0#8 :: 0#8 :: 0#8 :: (len ++ payload)).drop 4).take 4 = len :=
    List.take_left' hlen
  cases hhead
  cases (ofByte_code op').symm.trans hop
  rwa [hfield, ← hpayload]

end

/-- A frame that is no command is rejected by name: `decode` is total (R53). -/
theorem decode_error_of_ne_ok {b : Build} {f : List Byte} (h : ∀ i, decode b f ≠ .ok i) :
    ∃ e, decode b f = .error e := by
  cases hd : decode b f with
  | error e => exact ⟨e, rfl⟩
  | ok i => exact absurd hd (h i)

namespace Machine

/-- The response to `Malformed`, written out: `02 00 00 00 00 00 00 00` (R47, R52). -/
theorem respFrame_malformed : respFrame Condition.malformed.code [] = bare 0x02#8 := by decide

/-- The step on a frame that does not decode takes the frame and answers `Malformed`; nothing else changes (R161). -/
theorem step_of_decode_error {s : State} {f : List Byte} {rest : List Input} {e : DecodeError}
    (hinputs : s.inputs = .frame f :: rest) (herror : decode s.build f = .error e) :
    step s = .next (({ s with inputs := rest } : State).answered (bare 0x02#8)) := by
  simp only [step, hinputs, runFrame, herror, State.raise, State.respond, respFrame_malformed, State.answered]

/-- Settles O4: each clause contradicts what a frame that decodes looks like, so the frame is rejected. -/
theorem reservedFramesAreMalformed : Obligations.ReservedFramesAreMalformed := by
  intro s f rest hinputs hreserved
  have hnot : ∀ i, decode s.build f ≠ .ok i := by
    intro i hok
    rcases hreserved with ⟨o, hhead, hopcode⟩ | ⟨x, hx, hne⟩ | ⟨o, op, hhead, hop, hlen⟩ | hzeros
    · obtain ⟨op, hcode⟩ := head_of_decode_ok hok
      cases hhead.symm.trans hcode
      rcases hopcode with hzero | hhigh
      · exact op.code_ne_zero hzero
      · exact absurd op.code_toNat_lt (Nat.not_lt.mpr hhigh)
    · exact hne (reserved_bytes_of_decode_ok hok x hx)
    · exact absurd (lenAllowed_of_decode_ok hok hhead hop) (by simp [hlen])
    · obtain ⟨op, hcode⟩ := head_of_decode_ok hok
      exact op.code_ne_zero (hzeros _ (List.mem_of_head? hcode))
  obtain ⟨e, herror⟩ := decode_error_of_ne_ok hnot
  exact ⟨⟨e, herror⟩, step_of_decode_error hinputs herror⟩

end Machine

end Sys2Proof

/-! Construction (40_construct.md): which commands write the parameters (R67), and the sizing example (R70). -/

namespace Sys2Proof.Machine

/-- The commands that construct a filter: `CFG` and `LOAD` (R67). -/
def Constructs (i : Instr) : Prop := (∃ m k sa sb, i = .cfg m k sa sb) ∨ ∃ image, i = .load image

/-- The four parameters `M`, `K`, `SA` and `SB` are the same in both states (R67). -/
def SameParameters (s t : State) : Prop := t.m = s.m ∧ t.k = s.k ∧ t.sa = s.sa ∧ t.sb = s.sb

/-- A normal end either keeps the parameters, or it ends a construction with a bare `OK` (R66, R67, R130). -/
theorem normalEnd_sameParameters_or_constructs (i : Instr) (s : State) :
    SameParameters s (normalEnd i s).1 ∨ Constructs i ∧ (normalEnd i s).2 = (codeOk, []) := by
  cases i with
  | cfg m k sa sb => exact .inr ⟨.inl ⟨m, k, sa, sb, rfl⟩, rfl⟩
  | load image => exact .inr ⟨.inr ⟨image, rfl⟩, rfl⟩
  | ins | qry | rem | est | idx | dump | uni | int => exact .inl ⟨rfl, rfl, rfl, rfl⟩

/-- Settles O21: a condition writes no register, and of the normal ends only those of `CFG` and `LOAD` write one of the
four, with the response `OK`. -/
theorem parametersChangeOnlyByConstruction : Obligations.ParametersChangeOnlyByConstruction := by
  intro i s t hexec
  rcases exec_next_cases i s t hexec with ⟨c, rfl⟩ | ⟨-, -, -, rfl⟩
  · exact .inl ⟨rfl, rfl, rfl, rfl⟩
  · rcases normalEnd_sameParameters_or_constructs i s with hsame | ⟨hconstructs, hend⟩
    · exact .inl hsame
    · rw [lastResponse_answered, hend]
      exact .inr ⟨hconstructs, rfl⟩

theorem log_one_hundredth : Real.log 0.01 = -(2 * (Real.log 2 + Real.log 5)) := by
  rw [← Real.log_ten_eq, show (0.01 : ℝ) = (10 ^ 2)⁻¹ by norm_num, Real.log_inv, Real.log_pow]
  norm_num

/-- R70's value of `m` before it is rounded up, from the nine known decimals of `ln 2` and `ln 5`. -/
theorem sizeM_example_bounds :
    9585.058 ≤ -(1000 * Real.log 0.01) / Real.log 2 ^ 2 ∧ -(1000 * Real.log 0.01) / Real.log 2 ^ 2 < 9585.059 := by
  have hlow2 := Real.log_two_gt_d9
  have hhigh2 := Real.log_two_lt_d9
  have hlow5 := Real.log_five_gt_d9
  have hhigh5 := Real.log_five_lt_d9
  have hpos : 0 < Real.log 2 ^ 2 := by positivity
  have hsq_low : (0.6931471803 : ℝ) ^ 2 ≤ Real.log 2 ^ 2 := by gcongr
  have hsq_high : Real.log 2 ^ 2 ≤ (0.6931471808 : ℝ) ^ 2 := by gcongr
  rw [log_one_hundredth, le_div_iff₀ hpos, div_lt_iff₀ hpos]
  constructor <;> linarith

/-- R70's value of `k` before it is rounded. -/
theorem sizeK_example_bounds :
    6.6445 ≤ (9586 / 1000 : ℝ) * Real.log 2 ∧ (9586 / 1000 : ℝ) * Real.log 2 < 6.6446 := by
  have hlow := Real.log_two_gt_d9
  have hhigh := Real.log_two_lt_d9
  constructor <;> linarith

theorem isSizeM_example : IsSizeM 1000 0.01 9586 := by
  obtain ⟨hlow, hhigh⟩ := sizeM_example_bounds
  refine ((Nat.ceil_eq_iff (by norm_num)).mpr ?_).symm
  push_cast
  constructor <;> linarith

theorem isSizeK_example : IsSizeK 1000 9586 7 := by
  obtain ⟨hlow, hhigh⟩ := sizeK_example_bounds
  have hround : round ((9586 / 1000 : ℝ) * Real.log 2) = 7 := by
    rw [round_eq, Int.floor_eq_iff]
    push_cast
    constructor <;> linarith
  unfold IsSizeK
  push_cast
  rw [hround]
  decide

/-- Settles O23: both real values lie in their intervals of R70, and the rounded sizes follow from the intervals. -/
theorem sizingExample : Obligations.SizingExample :=
  ⟨sizeM_example_bounds, isSizeM_example, sizeK_example_bounds, isSizeK_example⟩

end Sys2Proof.Machine

/-! The Filter Core (42_filter_core.md): what `QRY` answers (R93, R95, R103, R105), what `UNI` reads from an image (R99,
R100, R104), and the keys that stay present along a run (R94, R102). -/

namespace Sys2Proof.Machine

/-- The code that `QRY key` ends with (R93, R149). -/
def State.qryCode (s : State) (key : List Byte) : Byte :=
  if s.valid then (if allSet s.arr (s.posList key) then codeOk else codeAbsent) else Condition.noFilter.code

/-- The key's cells are all set in the resident filter: what `QRY` tests (R93). -/
def State.Present (s : State) (key : List Byte) : Prop :=
  s.valid = true ∧ ∀ p ∈ s.posList key, 0 < s.arr.read p

/-- A command whose checks pass and whose normal end has no payload answers the bare code. -/
theorem exec_normal_bare {i : Instr} {s : State} {c : Byte} (himplemented : implemented s.build i.opcode = true)
    (hvalid : s.valid = true) (hcheck : operandCheck i s = none) (hend : (normalEnd i s).2 = (c, [])) :
    exec i s = .next ((normalEnd i s).1.answered (bare c)) := by
  rw [exec_normal i s himplemented (fun _ => hvalid) hcheck, respond_eq_answered, hend, respFrame_nil]

/-- Without a resident filter a command that needs one answers `NoFilter` (R149). -/
theorem exec_noFilter {i : Instr} {s : State} (himplemented : implemented s.build i.opcode = true)
    (hneeds : needsFilter i.opcode = true) (hvalid : s.valid = false) :
    exec i s = .next (s.answered (bare Condition.noFilter.code)) := by
  rw [exec_eq, State.checked, himplemented, hneeds, hvalid]
  rfl

/-- `QRY` always answers, and changes nothing but the responses (R36, R93). -/
theorem exec_qry (s : State) (key : List Byte) :
    exec (.qry key) s = .next (s.answered (bare (s.qryCode key))) := by
  cases hvalid : s.valid with
  | true =>
    rw [State.qryCode, if_pos hvalid]
    exact exec_normal_bare rfl hvalid rfl rfl
  | false =>
    rw [State.qryCode, hvalid]
    exact exec_noFilter rfl rfl hvalid

theorem qryCode_eq_ok_iff (s : State) (key : List Byte) : s.qryCode key = 0x00#8 ↔ s.Present key := by
  rw [State.Present, ← allSet_iff, State.qryCode]
  cases s.valid <;> cases allSet s.arr (s.posList key) <;> decide

theorem bare_inj {c d : Byte} : bare c = bare d ↔ c = d :=
  ⟨fun h => respFrame_inj c d [] [] h, congrArg bare⟩

/-- `QRY` answers `OK` exactly for the keys that are present (R93, R95). -/
theorem exec_qry_ok_iff (s : State) (key : List Byte) :
    exec (.qry key) s = .next (s.answered (bare 0x00#8)) ↔ s.Present key := by
  rw [exec_qry, Host.Outcome.next.injEq, ← qryCode_eq_ok_iff]
  refine ⟨fun h => ?_, fun h => by rw [h]⟩
  have hlast := congrArg State.lastResponse h
  rwa [lastResponse_answered, lastResponse_answered, Option.some.injEq, bare_inj] at hlast

/-- A filter is Saturated when every cell below `M` is set (10_state.md R15). -/
theorem isSaturated_iff (s : State) :
    s.isSaturated = true ↔ s.valid = true ∧ ∀ p, p < s.m.toNat → 0 < s.arr.read p := by
  have hones : s.ones = s.m.toNat ↔ ∀ p, p < s.m.toNat → 0 < s.arr.read p := by
    simpa [State.ones, Memory.isSet_iff] using List.countP_eq_length (p := s.arr.isSet) (l := List.range s.m.toNat)
  simp [State.isSaturated, hones]

/-- Where a filter exists, the invariant gives `M >= 1` (R17 (a)). -/
theorem one_le_m {s : State} (hinv : s.inv = true) (hvalid : s.valid = true) : 1 ≤ s.m.toNat :=
  ((paramsOk_iff ..).mp (((inv_iff s).mp hinv).2.2 hvalid).1).1

/-- Settles O35: every position of a key is below `M`, where every cell is set. -/
theorem saturatedFilterAnswersPresent : Obligations.SaturatedFilterAnswersPresent := by
  intro s key hinv hsaturated
  obtain ⟨hvalid, hset⟩ := (isSaturated_iff s).mp hsaturated
  refine (exec_qry_ok_iff s key).mpr ⟨hvalid, fun p hp => ?_⟩
  exact hset p (s.posList_lt key (one_le_m hinv hvalid) p hp)

/-- The two states differ in the delivered responses at most. -/
def SameButResponses (s t : State) : Prop := t = { s with responses := t.responses }

theorem sameButResponses_answered (s : State) (r : List Byte) : SameButResponses s (s.answered r) := rfl

theorem SameButResponses.trans {s t u : State} (hst : SameButResponses s t) (htu : SameButResponses t u) :
    SameButResponses s u := by
  unfold SameButResponses at *
  rw [htu, hst]

theorem sameButResponses_of_silentExecs {s t : State} (h : Relation.ReflTransGen SilentExec s t) :
    SameButResponses s t := by
  induction h with
  | refl => rfl
  | tail _ hstep ih =>
    obtain ⟨i, -, hsame⟩ := hstep
    exact ih.trans hsame

theorem qryCode_eq_of_sameButResponses {s t : State} (h : SameButResponses s t) (key : List Byte) :
    t.qryCode key = s.qryCode key := by
  rw [h]; rfl

/-- Settles O33: the answer of `QRY` does not depend on the responses, and nothing else changed since the first one. -/
theorem queriesAreDeterministic : Obligations.QueriesAreDeterministic := by
  intro s s1 s2 s3 key hfirst hsilent hsecond
  rw [exec_qry, Host.Outcome.next.injEq] at hfirst hsecond
  subst hfirst hsecond
  have hsame : SameButResponses s s2 :=
    (sameButResponses_answered s _).trans (sameButResponses_of_silentExecs hsilent)
  rw [lastResponse_answered, lastResponse_answered, qryCode_eq_of_sameButResponses hsame]

/-- A cell read from the dumped image is the cell of the filter (44_image.md R126, R127). -/
theorem imgCell_image {s : State} (hinv : s.inv = true) (hvalid : s.valid = true) {p : Nat} (hp : p < s.m.toNat) :
    imgCell s.build s.image p = s.arr.read p := by
  have hcell : s.arr.read p < 2 ^ s.build.cw := Nat.lt_of_le_of_lt (arr_le s hinv hvalid p).1 (cmax_lt _)
  rw [State.image_eq]
  exact imgCell_append_pack _ (cw_pos _ ((inv_iff s).mp hinv).1) _ _ _ (by simp) p hp hcell

/-- The image of a filter of the same build and shape passes every check of R99. -/
theorem checkOperand_image {s b : State} (hbuild : b.build = s.build) (hshape : SameParameters s b) :
    s.checkOperand b.image = none := by
  obtain ⟨hm, hk, hsa, hsb⟩ := hshape
  obtain ⟨him, hik, hisa, hisb⟩ := b.image_header
  have hsame : s.sameShape b.image = true := by
    simp [State.sameShape, him, hik, hisa, hisb, hm, hk, hsa, hsb]
  have hlen : imgLenOk s.build s.m.toNat b.image = true := by simp [imgLenOk, hbuild, hm]
  have hpadding : imgPaddingOk s.build s.m.toNat b.image = true := by
    rw [State.image_eq, ← hbuild, ← hm]
    exact imgPaddingOk_append_pack _ _ _ _ (by simp)
  simp [State.checkOperand, hsame, hlen, hpadding]

/-- `UNI` leaves in each cell below `M` the OR of the two cells, and no cell from `M` on (R100). -/
theorem read_normalEnd_uni (image : List Byte) (s : State) (p : Nat) :
    (normalEnd (.uni image) s).1.arr.read p =
      if p < s.m.toNat then s.arr.read p ||| imgCell s.build image p else 0 :=
  Memory.read_ofFn ..

/-- A key present in one filter is present in another of the same parameters that has no lower cell at its positions. -/
theorem State.Present.mono {s t : State} {key : List Byte} (h : s.Present key) (hvalid : t.valid = true)
    (hparams : SameParameters s t) (hle : ∀ p ∈ s.posList key, s.arr.read p ≤ t.arr.read p) : t.Present key := by
  obtain ⟨hm, hk, hsa, hsb⟩ := hparams
  refine ⟨hvalid, fun p hp => ?_⟩
  rw [State.posList_congr t s key hm hk hsa hsb] at hp
  exact Nat.lt_of_lt_of_le (h.2 p hp) (hle p hp)

/-- Settles O34: below `M`, where all positions are, the OR lowers no cell of either filter. -/
theorem unionKeepsBothMemberships : Obligations.UnionKeepsBothMemberships := by
  intro s b hinv hinvb hvalid hvalidb hbaseline hbuild hm hk hsa hsb
  have huni : exec (.uni b.image) s = .next ((normalEnd (.uni b.image) s).1.answered (bare 0x00#8)) :=
    exec_normal_bare (by simp [Instr.opcode, implemented, hbaseline]) hvalid
      (checkOperand_image hbuild ⟨hm, hk, hsa, hsb⟩) rfl
  have hread : ∀ p, p < s.m.toNat →
      (normalEnd (.uni b.image) s).1.arr.read p = s.arr.read p ||| b.arr.read p := by
    intro p hp
    rw [read_normalEnd_uni, if_pos hp, ← imgCell_image hinvb hvalidb (hm ▸ hp), hbuild]
  refine ⟨_, huni, lastResponse_answered .., fun key hkey => ?_⟩
  rw [exec_qry_ok_iff, exec_qry_ok_iff] at hkey
  rw [exec_qry_ok_iff]
  rcases hkey with hs | hb
  · refine hs.mono hvalid ⟨rfl, rfl, rfl, rfl⟩ fun p hp => ?_
    exact Nat.left_le_or.trans (hread p (s.posList_lt key (one_le_m hinv hvalid) p hp)).ge
  · refine hb.mono hvalid ⟨hm.symm, hk.symm, hsa.symm, hsb.symm⟩ fun p hp => ?_
    exact Nat.right_le_or.trans (hread p (hm ▸ b.posList_lt key (one_le_m hinvb hvalidb) p hp)).ge

/-- In a baseline build the normal end of a command of R102 lowers no cell (R17 (d)). -/
theorem read_le_normalEnd {i : Instr} {s : State} (hinv : s.inv = true) (hvalid : s.valid = true)
    (hbaseline : s.build.variant = .baseline) (hkeeps : keepsBits i = true) (p : Nat) :
    s.arr.read p ≤ (normalEnd i s).1.arr.read p := by
  obtain ⟨hbuild, hwf, -⟩ := (inv_iff s).mp hinv
  obtain ⟨hmax, houtside⟩ := arr_le s hinv hvalid p
  cases i with
  | qry | est | idx | dump => exact Nat.le_refl _
  | cfg | rem | load | int => cases hkeeps
  | ins key =>
    show _ ≤ (bumpAll s.build s.arr (s.posList key)).read p
    rw [cmax_baseline _ hbuild hbaseline] at hmax
    rw [read_bumpAll_baseline _ hbaseline _ _ hwf]
    split
    · exact hmax
    · exact Nat.le_refl _
  | uni image =>
    rw [read_normalEnd_uni]
    split
    · exact Nat.left_le_or
    · next hp => exact (houtside (Nat.le_of_not_lt hp)).le

/-- No normal end destroys the resident filter. -/
theorem valid_normalEnd (i : Instr) {s : State} (hvalid : s.valid = true) : (normalEnd i s).1.valid = true := by
  cases i with
  | cfg | load => rfl
  | ins | qry | rem | est | idx | dump | uni | int => exact hvalid

theorem not_constructs_of_keepsBits {i : Instr} (h : keepsBits i = true) : ¬ Constructs i := by
  rintro (⟨m, k, sa, sb, rfl⟩ | ⟨image, rfl⟩) <;> cases h

/-- What the steps of R102 keep: a baseline block of the invariant in which the key is present. -/
structure Remembers (key : List Byte) (s : State) : Prop where
  inv : s.inv = true
  baseline : s.build.variant = .baseline
  present : s.Present key

section
variable {key : List Byte} {s : State}

/-- The key stays present whatever becomes of the channels. -/
theorem Remembers.with_channels (h : Remembers key s) (inputs : List Input) (responses : List (List Byte)) :
    Remembers key { s with inputs := inputs, responses := responses } :=
  ⟨h.inv, h.baseline, h.present⟩

theorem Remembers.valid (h : Remembers key s) : s.valid = true := h.present.1

theorem Remembers.after_normalEnd {i : Instr} (h : Remembers key s) (hkeeps : keepsBits i = true)
    (himplemented : implemented s.build i.opcode = true) (hcheck : operandCheck i s = none) :
    Remembers key (normalEnd i s).1 where
  inv := inv_normalEnd i s h.inv himplemented (fun _ => h.valid) hcheck
  baseline := (normalEnd_frame i s).1 ▸ h.baseline
  present := by
    have hsame := (normalEnd_sameParameters_or_constructs i s).resolve_right
      fun hc => not_constructs_of_keepsBits hkeeps hc.1
    exact h.present.mono (valid_normalEnd i h.valid) hsame
      fun p _ => read_le_normalEnd h.inv h.valid h.baseline hkeeps p

theorem Remembers.after_exec {i : Instr} {t : State} (h : Remembers key s) (hkeeps : keepsBits i = true)
    (hexec : exec i s = .next t) : Remembers key t := by
  rcases exec_next_cases i s t hexec with ⟨c, rfl⟩ | ⟨himplemented, -, hcheck, rfl⟩
  · exact h.with_channels _ _
  · exact (h.after_normalEnd hkeeps himplemented hcheck).with_channels _ _

/-- After an `INS` that ended `OK` in a baseline build, its key is present (R91, R94). -/
theorem remembers_of_ins {t : State} (hinv : s.inv = true) (hbaseline : s.build.variant = .baseline)
    (hexec : exec (.ins key) s = .next t) (hok : t.lastResponse = some (bare 0x00#8)) : Remembers key t := by
  rcases exec_next_cases _ s t hexec with ⟨c, rfl⟩ | ⟨himplemented, hfilter, hcheck, rfl⟩
  · rw [lastResponse_answered, Option.some.injEq, bare_inj] at hok
    cases c <;> cases hok
  · have hinv' := inv_normalEnd _ s hinv himplemented hfilter hcheck
    refine Remembers.with_channels ⟨hinv', hbaseline, hfilter rfl, ?_⟩ _ _
    intro p (hp : p ∈ s.posList key)
    show 0 < (bumpAll s.build s.arr (s.posList key)).read p
    rw [read_bumpAll_baseline _ hbaseline _ _ ((inv_iff s).mp hinv).2.1, if_pos hp]
    exact Nat.one_pos

/-- The step on a frame that decodes is its command on the state that has taken the frame (R161). -/
theorem step_of_decode_ok {f : List Byte} {rest : List Input} {i : Instr}
    (hinputs : s.inputs = .frame f :: rest) (hdecode : decode s.build f = .ok i) :
    step s = exec i { s with inputs := rest } := by
  simp only [step, hinputs, runFrame, hdecode]

/-- A command that ends with a condition changes nothing but the responses (60_exceptions.md R146). -/
theorem exec_of_endedWithCondition {i : Instr} {t : State} (hexec : exec i s = .next t) (h : EndedWithCondition t) :
    ∃ r, t = s.answered r := by
  rcases exec_next_cases i s t hexec with ⟨c, rfl⟩ | ⟨-, -, -, rfl⟩
  · exact ⟨_, rfl⟩
  · obtain ⟨c, hc⟩ := h
    rw [lastResponse_answered, Option.some.injEq] at hc
    exact absurd (respFrame_inj _ _ _ _ hc) (normalEnd_code i s c)

theorem Remembers.after_calmStep {t : State} (h : Remembers key s) (hcalm : CalmStep s t) : Remembers key t := by
  obtain ⟨hstep, f, rest, hinputs, hwhy⟩ := hcalm
  cases hdecode : decode s.build f with
  | error e =>
    rw [step_of_decode_error hinputs hdecode] at hstep
    cases hstep
    exact h.with_channels _ _
  | ok i =>
    rw [step_of_decode_ok hinputs hdecode] at hstep
    rcases hwhy with ⟨j, hj, hkeeps⟩ | hcondition
    · cases hdecode.symm.trans hj
      exact (h.with_channels rest s.responses).after_exec hkeeps hstep
    · obtain ⟨r, rfl⟩ := exec_of_endedWithCondition hstep hcondition
      exact h.with_channels _ _

theorem Remembers.after_calmSteps {t : State} (h : Remembers key s) (hrun : Relation.ReflTransGen CalmStep s t) :
    Remembers key t := by
  induction hrun with
  | refl => exact h
  | tail _ hcalm ih => exact ih.after_calmStep hcalm

end

/-- Settles O32, by induction over the calm steps: `INS` makes the key present, every calm step keeps it so, and `QRY`
answers `OK` for a key that is present. -/
theorem noFalseNegatives : Obligations.NoFalseNegatives := by
  intro s s1 s2 key f g rest rest' hinv hbaseline hinputs hins hstep hok hrun hinputs2 hqry
  rw [step_of_decode_ok hinputs hins] at hstep
  have hstart : Remembers key s1 := remembers_of_ins (s := { s with inputs := rest }) hinv hbaseline hstep hok
  have hend : Remembers key s2 := hstart.after_calmSteps hrun
  rw [step_of_decode_ok hinputs2 hqry, exec_qry_ok_iff]
  exact (hend.with_channels rest' s2.responses).present

end Sys2Proof.Machine

/-! Conditions (60_exceptions.md): the one condition that a command reports (R145, R147, R149), and that it leaves no
trace (R146). -/

namespace Sys2Proof.Machine

/-- The response codes tell the conditions apart (R52). -/
theorem Condition.code_injective (c d : Condition) : c.code = d.code → c = d := by
  cases c <;> cases d <;> decide

/-- The codes of the conditions run from 2 to 7 (R52). -/
theorem Condition.code_range (c : Condition) : 2 ≤ c.code.toNat ∧ c.code.toNat ≤ 7 := by
  cases c <;> decide

/-- Settles O12: only a condition ends a command with a condition's code, and its response is all that is new. -/
theorem conditionsLeaveNoTrace : Obligations.ConditionsLeaveNoTrace := by
  rintro i s t hexec ⟨c, hc⟩
  obtain ⟨r, rfl⟩ := exec_of_endedWithCondition hexec ⟨c, hc⟩
  rw [lastResponse_answered, Option.some.injEq, respFrame_nil] at hc
  subst hc
  exact ⟨c.code, c.code_range.1, c.code_range.2, rfl⟩

/-- The checks of an image whose `m` is accepted: its length and its padding (42 R99, 44 R130). -/
def imageCheck (b : Build) (m : Nat) (image : List Byte) : Option Condition :=
  if imgLenOk b m image = false then some .malformed
  else if imgPaddingOk b m image = false then some .malformed
  else none

theorem imageCheck_of_malformed {b : Build} {m : Nat} {image : List Byte}
    (h : imgLenOk b m image = false ∨ imgPaddingOk b m image = false) : imageCheck b m image = some .malformed := by
  unfold imageCheck
  rcases h with hlen | hpadding
  · rw [if_pos hlen]
  · rw [if_pos hpadding, ite_self]

/-- `LOAD` checks the parameters, then the rest of the image (44 R130). -/
theorem checkLoad_eq (b : Build) (image : List Byte) :
    checkLoad b image =
      if paramsOk b (imgM image) (imgK image) = true then imageCheck b (imgM image).toNat image
      else some .invalidParameters := by
  rw [checkLoad]
  cases paramsOk b (imgM image) (imgK image) <;> rfl

/-- `UNI` and `INT` check the shape, then the rest of the image (42 R99). -/
theorem State.checkOperand_eq (s : State) (image : List Byte) :
    s.checkOperand image =
      if s.sameShape image = true then imageCheck s.build s.m.toNat image else some .shapeMismatch := by
  rw [State.checkOperand]
  cases s.sameShape image <;> rfl

/-- The same shape is four equal header fields (42 R99). -/
theorem State.sameShape_iff (s : State) (image : List Byte) : s.sameShape image = true ↔
    imgM image = s.m ∧ imgK image = s.k ∧ imgSA image = s.sa ∧ imgSB image = s.sb := by
  simp [State.sameShape, and_assoc]

/-- The conditions that a command's own operand checks can raise, by R147 (4), (5); the other two come before them. -/
def Condition.ofOperands : Condition → Bool
  | .malformed => true
  | .invalidParameters => true
  | .shapeMismatch => true
  | .notPresent => true
  | .noFilter => false
  | .unsupported => false

theorem ofOperands_of_imageCheck {b : Build} {m : Nat} {image : List Byte} {c : Condition}
    (h : imageCheck b m image = some c) : c.ofOperands = true := by
  unfold imageCheck at h
  split at h
  · cases h; rfl
  · split at h <;> cases h
    rfl

theorem ofOperands_of_operandCheck {i : Instr} {s : State} {c : Condition} (h : operandCheck i s = some c) :
    c.ofOperands = true := by
  cases i with
  | ins | qry | est | dump => cases h
  | cfg | rem | idx =>
    simp only [operandCheck] at h
    split at h <;> cases h
    rfl
  | load image =>
    rw [operandCheck, checkLoad_eq] at h
    split at h
    · exact ofOperands_of_imageCheck h
    · cases h; rfl
  | uni image | int image =>
    rw [operandCheck, State.checkOperand_eq] at h
    split at h
    · exact ofOperands_of_imageCheck h
    · cases h; rfl

/-- The condition that command `i` reports, the first that applies in the order of R147, or none. -/
def reportedCondition (i : Instr) (s : State) : Option Condition :=
  if implemented s.build i.opcode = false then some .unsupported
  else if needsFilter i.opcode = true ∧ s.valid = false then some .noFilter
  else operandCheck i s

section
variable {i : Instr} {s t : State}

theorem reportedCondition_of_ready (himplemented : implemented s.build i.opcode = true)
    (hfilter : needsFilter i.opcode = true → s.valid = true) : reportedCondition i s = operandCheck i s := by
  rw [reportedCondition, if_neg (by simp [himplemented]), if_neg (fun h => by simp [hfilter h.1] at h)]

/-- A command raises the condition that it reports, and without one it ends normally. -/
theorem exec_reported_cases (i : Instr) (s : State) :
    (∃ c, reportedCondition i s = some c ∧ exec i s = s.raise c) ∨
    (reportedCondition i s = none ∧ exec i s = (normalEnd i s).1.finish (normalEnd i s).2.1 (normalEnd i s).2.2) := by
  rw [exec_eq]
  rcases s.checked_cases i.opcode _ with ⟨hnot, h⟩ | ⟨himplemented, hneeds, hvalid, h⟩ | ⟨himplemented, hfilter, h⟩
  · exact .inl ⟨.unsupported, if_pos hnot, h⟩
  · refine .inl ⟨.noFilter, ?_, h⟩
    rw [reportedCondition, if_neg (by simp [himplemented]), if_pos ⟨hneeds, hvalid⟩]
  · rw [h, reportedCondition_of_ready himplemented hfilter]
    cases operandCheck i s with
    | some c => exact .inl ⟨c, rfl, rfl⟩
    | none => exact .inr ⟨rfl, rfl⟩

theorem exec_of_reportedCondition {c : Condition} (h : reportedCondition i s = some c) :
    exec i s = .next (s.answered (bare c.code)) := by
  rcases exec_reported_cases i s with ⟨d, hd, hraise⟩ | ⟨hnone, -⟩
  · cases hd.symm.trans h
    exact hraise
  · cases hnone.symm.trans h

theorem exec_of_operandCheck {c : Condition} (himplemented : implemented s.build i.opcode = true)
    (hfilter : needsFilter i.opcode = true → s.valid = true) (h : operandCheck i s = some c) :
    exec i s = .next (s.answered (bare c.code)) :=
  exec_of_reportedCondition ((reportedCondition_of_ready himplemented hfilter).trans h)

/-- The response names the reported condition, and a normal end names none. -/
theorem lastResponse_eq_condition_iff (hexec : exec i s = .next t) (c : Condition) :
    t.lastResponse = some (bare c.code) ↔ reportedCondition i s = some c := by
  rcases exec_reported_cases i s with ⟨d, hd, hraise⟩ | ⟨hnone, hend⟩
  · cases hraise.symm.trans hexec
    rw [hd, lastResponse_respond, respFrame_nil, Option.some.injEq, Option.some.injEq, bare_inj]
    exact ⟨d.code_injective c, congrArg Condition.code⟩
  · cases hend.symm.trans hexec
    rw [hnone, lastResponse_respond, Option.some.injEq]
    exact ⟨fun h => absurd (respFrame_inj _ _ _ [] h) (normalEnd_code i s c), nofun⟩

/-- A command reports `Unsupported` exactly when the build does not implement it (R145). -/
theorem reportedCondition_eq_unsupported_iff :
    reportedCondition i s = some .unsupported ↔ implemented s.build i.opcode = false := by
  refine ⟨fun h => ?_, fun h => if_pos h⟩
  by_contra himplemented
  rw [reportedCondition, if_neg himplemented] at h
  split at h
  · cases h
  · cases ofOperands_of_operandCheck h

/-- A construction needs no filter, so it never reports its absence (R149). -/
theorem reportedCondition_ne_noFilter_of_constructs (h : Constructs i) : reportedCondition i s ≠ some .noFilter := by
  have hready : reportedCondition i s = operandCheck i s := by
    rcases h with ⟨m, k, sa, sb, rfl⟩ | ⟨image, rfl⟩ <;> exact reportedCondition_of_ready rfl nofun
  intro hreported
  cases ofOperands_of_operandCheck (hready ▸ hreported)

end

/-- Every command but the constructions needs a filter (R149). -/
theorem needsFilter_of_not_constructs {i : Instr} (h : ¬ Constructs i) : needsFilter i.opcode = true := by
  cases i with
  | cfg m k sa sb => exact absurd (.inl ⟨m, k, sa, sb, rfl⟩) h
  | load image => exact absurd (.inr ⟨image, rfl⟩) h
  | ins | qry | rem | est | idx | dump | uni | int => rfl

/-- Settles O15: the eight commands need a filter, and a construction never reports that there is none. -/
theorem noFilterBeforeConstruction : Obligations.NoFilterBeforeConstruction := by
  refine ⟨fun s i hvalid himplemented hcfg hload => ?_, fun s t i hconstructs hexec hlast => ?_⟩
  · have hnot : ¬ Constructs i := by
      rintro (⟨m, k, sa, sb, h⟩ | ⟨image, h⟩)
      · exact hcfg m k sa sb h
      · exact hload image h
    exact exec_noFilter himplemented (needsFilter_of_not_constructs hnot) hvalid
  · exact reportedCondition_ne_noFilter_of_constructs hconstructs
      ((lastResponse_eq_condition_iff hexec .noFilter).mp hlast)

/-- The rows of R145: the commands that a build leaves out. -/
theorem implemented_eq_false_iff (b : Build) (i : Instr) : implemented b i.opcode = false ↔
    (∃ key, i = .rem key ∧ b.variant = .baseline) ∨
    (∃ image, i = .uni image ∧ b.variant = .counting) ∨
    (∃ image, i = .int image ∧ (b.variant = .counting ∨ b.hasIntersect = false)) := by
  cases i with
  | rem | uni | int => cases hvariant : b.variant <;> simp [Instr.opcode, implemented, hvariant]
  | cfg | ins | qry | est | idx | dump | load => simp [Instr.opcode, implemented]

/-- Settles O16: the response is `Unsupported` exactly when the build leaves the command out, and those are R145's rows. -/
theorem unsupportedCommands : Obligations.UnsupportedCommands := by
  intro s t i hexec
  calc t.lastResponse = some (bare 0x07#8)
      ↔ reportedCondition i s = some .unsupported := lastResponse_eq_condition_iff hexec .unsupported
    _ ↔ implemented s.build i.opcode = false := reportedCondition_eq_unsupported_iff
    _ ↔ _ := implemented_eq_false_iff s.build i

/-- `LOAD`'s checks need neither a filter nor a particular build (R147, 44 R130). -/
theorem exec_load_of_checkLoad {s : State} {image : List Byte} {c : Condition}
    (h : checkLoad s.build image = some c) : exec (.load image) s = .next (s.answered (bare c.code)) :=
  exec_of_operandCheck rfl nofun h

/-- `REM` raises `NotPresent` when some counter is below its multiplicity (43 R115). -/
theorem covers_eq_false {s : State} {key : List Byte} (h : ∃ p, s.arr.read p < s.mult key p) :
    covers s.arr (s.posList key) = false := by
  obtain ⟨p, hp⟩ := h
  refine Bool.eq_false_iff.mpr fun hcovers => ?_
  exact Nat.not_lt.mpr ((covers_iff ..).mp hcovers p) hp

/-- The operand checks of `UNI` and `INT`, in the order of 42 R99. -/
theorem exec_of_checkOperand {s : State} {image : List Byte} {i : Instr} {c : Condition}
    (hi : i = .uni image ∨ i = .int image) (himplemented : implemented s.build i.opcode = true)
    (hvalid : s.valid = true) (h : s.checkOperand image = some c) :
    exec i s = .next (s.answered (bare c.code)) := by
  refine exec_of_operandCheck himplemented (fun _ => hvalid) ?_
  rcases hi with rfl | rfl <;> exact h

/-- Settles O13: each clause names the first check that fails, and the command reports that check's condition. -/
theorem conditionPriority : Obligations.ConditionPriority := by
  refine ⟨?malformedFrame, ?unsupported, ?noFilter, ?cfg, ?loadParameters, ?loadImage, ?operand, ?idx, ?rem⟩
  case malformedFrame => exact fun s f rest e hinputs herror => step_of_decode_error hinputs herror
  case unsupported =>
    exact fun s i h => exec_of_reportedCondition (reportedCondition_eq_unsupported_iff.mpr h)
  case noFilter => exact fun s i himplemented hneeds hvalid => exec_noFilter himplemented hneeds hvalid
  case cfg =>
    intro s m k sa sb hparams
    have hcheck : operandCheck (.cfg m k sa sb) s = some .invalidParameters := if_neg (by simp [hparams])
    exact exec_of_operandCheck (i := .cfg m k sa sb) rfl nofun hcheck
  case loadParameters =>
    intro s image hparams
    exact exec_load_of_checkLoad ((checkLoad_eq ..).trans (if_neg (by simp [hparams])))
  case loadImage =>
    intro s image hparams hbad
    exact exec_load_of_checkLoad (by rw [checkLoad_eq, if_pos hparams, imageCheck_of_malformed hbad])
  case operand =>
    intro s image i hi himplemented hvalid
    refine ⟨fun hshape => ?_, fun hshape hbad => ?_⟩ <;> rw [← s.sameShape_iff] at hshape
    · exact exec_of_checkOperand hi himplemented hvalid (by rw [State.checkOperand_eq, if_neg hshape])
    · exact exec_of_checkOperand hi himplemented hvalid
        (by rw [State.checkOperand_eq, if_pos hshape, imageCheck_of_malformed hbad])
  case idx =>
    intro s i key hvalid hi
    have hcheck : operandCheck (.idx i key) s = some .malformed := if_neg (Nat.not_lt.mpr hi)
    exact exec_of_operandCheck rfl (fun _ => hvalid) hcheck
  case rem =>
    intro s key hcounting hvalid hlow
    have himplemented : implemented s.build .rem = true := by simp [implemented, hcounting]
    have hcheck : operandCheck (.rem key) s = some .notPresent := if_neg (by simp [covers_eq_false hlow])
    exact exec_of_operandCheck himplemented (fun _ => hvalid) hcheck

end Sys2Proof.Machine

/-! Encoding: every well-formed command has exactly one frame (30_encoding.md R46, R49, R50, R53, R57). -/

namespace Sys2Proof

/-- The columns of R6 and C9 for a legal build, said in numbers. -/
theorem Build.ok_iff (b : Build) : b.ok = true ↔
    b.cwOk = true ∧ 1 ≤ b.mMax ∧ b.mMax ≤ 2 ^ 64 - 1 ∧ 28 + (b.mMax * b.cw + 7) / 8 ≤ 2 ^ 32 - 1 ∧
    1 ≤ b.kMax ∧ b.kMax ≤ 2 ^ 32 - 1 ∧ b.keyMax ≤ 2 ^ 32 - 5 := by
  simp [Build.ok, and_assoc]

/-- The laws of R50, collected from the commands. -/
theorem operandsOfPayload (i : Instr) : Laws.OperandsOfPayload.Statement i := by
  cases i with
  | cfg m k sa sb => exact Laws.OperandsOfPayload.cfg m k sa sb
  | ins key => exact Laws.OperandsOfPayload.ins key
  | qry key => exact Laws.OperandsOfPayload.qry key
  | rem key => exact Laws.OperandsOfPayload.rem key
  | est => exact Laws.OperandsOfPayload.est
  | idx i key => exact Laws.OperandsOfPayload.idx i key
  | dump => exact Laws.OperandsOfPayload.dump
  | load image => exact Laws.OperandsOfPayload.load image
  | uni image => exact Laws.OperandsOfPayload.uni image
  | int image => exact Laws.OperandsOfPayload.int image

/-- The frame of R57, byte by byte. -/
theorem encode_eq (i : Instr) :
    encode i = i.opcode.code :: 0#8 :: 0#8 :: 0#8 :: (be 4 i.payload.length ++ i.payload) := rfl

/-- The payload of a well-formed command has a length that `LEN` can hold (R46). -/
theorem payload_length_lt {b : Build} {i : Instr} (hbuild : b.ok = true) (hwf : i.wf b = true) :
    i.payload.length < 256 ^ 4 := by
  obtain ⟨-, -, -, -, -, -, hkeyMax⟩ := b.ok_iff.mp hbuild
  cases i with
  | cfg | est | dump => simp [Instr.payload]
  | ins | qry | rem | idx =>
    simp only [Instr.wf, keyOk, decide_eq_true_eq] at hwf
    simp only [Instr.payload, List.length_append, be_length]
    omega
  | load | uni | int =>
    simp only [Instr.wf, imageOk, Bool.and_eq_true, decide_eq_true_eq] at hwf
    simp only [Instr.payload]
    omega

/-- A frame that passes the first four checks of R53 is decided by the fifth. -/
theorem decode_frame (b : Build) (op : Opcode) (len payload : List Byte) (hfield : len.length = 4)
    (hlen : payload.length = fromBe len) :
    decode b (op.code :: 0#8 :: 0#8 :: 0#8 :: (len ++ payload)) =
      if lenAllowed b op payload.length then .ok (operands op payload) else .error .lenNotAllowed := by
  match len, hfield with
  | [l3, l2, l1, l0], _ => simp [decode, hlen, ofByte_code]

/-- Settles O1: `LEN` holds the length of the payload, and the operands are cut from the payload as they were put in. -/
theorem decodeOfEncodeIsTheCommand : Obligations.DecodeOfEncodeIsTheCommand := by
  intro b i hbuild hwf
  obtain ⟨hoperands, hallowed⟩ := operandsOfPayload i
  have hlen : i.payload.length = fromBe (be 4 i.payload.length) := by
    rw [fromBe_be, Nat.mod_eq_of_lt (payload_length_lt hbuild hwf)]
  rw [encode_eq, decode_frame b _ _ _ (be_length ..) hlen, if_pos (hallowed b hwf), hoperands]

@[simp] theorem opcode_operands (op : Opcode) (p : List Byte) : (operands op p).opcode = op := by
  cases op <;> rfl

/-- The operands of R50 hold every byte of a payload of an allowed length. -/
theorem payload_operands {b : Build} {op : Opcode} {p : List Byte} (h : lenAllowed b op p.length = true) :
    (operands op p).payload = p := by
  cases op with
  | cfg =>
    have hlen : p.length = 28 := by simpa [lenAllowed] using h
    calc (operands .cfg p).payload = p.take 28 := Machine.header_bytes p hlen.ge
      _ = p := List.take_of_length_le hlen.le
  | est | dump =>
    have hlen : p.length = 0 := by simpa [lenAllowed] using h
    exact (List.length_eq_zero_iff.mp hlen).symm
  | idx =>
    have hlen : 4 ≤ p.length := by
      simp only [lenAllowed, Bool.and_eq_true, decide_eq_true_eq] at h
      exact h.1
    show be 4 (BitVec.ofNat 32 (fromBe (slice 0 4 p))).toNat ++ p.drop 4 = p
    rw [be_word32 _ (slice_length 0 4 p hlen)]
    exact List.take_append_drop 4 p
  | ins | qry | rem | load | uni | int => rfl

/-- A payload of an allowed length that fits `LEN` gives a well-formed command (R49). -/
theorem wf_operands {b : Build} {op : Opcode} {p : List Byte} (h : lenAllowed b op p.length = true)
    (hlt : p.length < 2 ^ 32) : (operands op p).wf b = true := by
  cases op with
  | cfg | est | dump => rfl
  | ins | qry | rem => exact h
  | idx =>
    simp only [lenAllowed, Bool.and_eq_true, decide_eq_true_eq] at h
    simp only [operands, Instr.wf, keyOk, List.length_drop, decide_eq_true_eq]
    omega
  | load | uni | int => exact Bool.and_eq_true_iff.mpr ⟨h, decide_eq_true hlt⟩

/-- Settles O2: the checks of R53 fix the opcode, the reserved bytes and `LEN`, and the operands keep the payload. -/
theorem decodedFrameIsItsEncoding : Obligations.DecodedFrameIsItsEncoding := by
  intro b f i h
  obtain ⟨op, len, payload, rfl, hfield, hlen, hallowed, rfl⟩ := frame_of_decode_ok h
  have hlt : payload.length < 2 ^ 32 := by
    have := fromBe_lt len
    rw [hfield] at this
    omega
  refine ⟨?_, wf_operands hallowed hlt⟩
  rw [encode_eq, opcode_operands, payload_operands hallowed, hlen, ← hfield, be_fromBe]

/-- Settles O3: the decoder runs on the four frames. -/
theorem writtenOutFramesDecode : Obligations.WrittenOutFramesDecode := by
  refine ⟨?_, ?_, ?_, ?_⟩ <;> decide

/-- Settles O5: the layout of a frame, and the assembler and the encoder run on the two lines. -/
theorem assemblyOfALine : Obligations.AssemblyOfALine := by
  refine ⟨encode_eq, ⟨.ins [0x02#8, 0x03#8], ?_, ?_⟩, ⟨.cfg 10#64 3#32 0#64 1#64, ?_, ?_⟩⟩ <;> decide

end Sys2Proof

/-! The step (60_exceptions.md R161, 70_reset_and_hazards.md): it always answers (R173), takes the inputs in order,
gives one response per command frame (30_encoding.md R45, R47) with a code of the table (R148), and keeps the
invariant (R17). -/

namespace Sys2Proof.Machine

/-- The code and the payload that command `i` answers on state `s`. -/
def answerOf (i : Instr) (s : State) : Byte × List Byte :=
  match reportedCondition i s with
  | some c => (c.code, [])
  | none => (normalEnd i s).2

/-- Every command answers a next state: it adds the response of `answerOf`, and build and inputs stay (R45, R146). -/
theorem exec_answers (i : Instr) (s : State) :
    ∃ t, exec i s = .next t ∧ t.build = s.build ∧ t.inputs = s.inputs ∧
      t.responses = s.responses ++ [respFrame (answerOf i s).1 (answerOf i s).2] := by
  rcases exec_reported_cases i s with ⟨c, hc, hraise⟩ | ⟨hnone, hend⟩
  · exact ⟨_, hraise, rfl, rfl, by simp [answerOf, hc]⟩
  · obtain ⟨hbuild, hinputs, hresponses, -⟩ := normalEnd_frame i s
    exact ⟨_, hend, hbuild, hinputs, by simp [answerOf, hnone, hresponses]⟩

theorem exec_next_answers {i : Instr} {s t : State} (h : exec i s = .next t) :
    t.build = s.build ∧ t.inputs = s.inputs ∧
      t.responses = s.responses ++ [respFrame (answerOf i s).1 (answerOf i s).2] := by
  obtain ⟨u, hu, hrest⟩ := exec_answers i s
  cases hu.symm.trans h
  exact hrest

/-- A command frame is answered once, by `Malformed` or by its command (R161). -/
theorem step_frame_cases {s : State} {f : List Byte} {rest : List Input} (hinputs : s.inputs = .frame f :: rest) :
    step s = .next (({ s with inputs := rest } : State).answered (respFrame 0x02#8 [])) ∨
    ∃ i, decode s.build f = .ok i ∧ step s = exec i { s with inputs := rest } := by
  cases hdecode : decode s.build f with
  | error e => exact .inl (step_of_decode_error hinputs hdecode)
  | ok i => exact .inr ⟨i, rfl, step_of_decode_ok hinputs hdecode⟩

/-- Settles O6: the step on a frame that decodes. -/
theorem stepRunsTheDecodedCommand : Obligations.StepRunsTheDecodedCommand :=
  fun _ _ _ _ hinputs hdecode => step_of_decode_ok hinputs hdecode

/-- Settles O7, by the next input: a command always answers, and a reset is itself a next state. -/
theorem everyStepAnswersNext : Obligations.EveryStepAnswersNext := by
  intro s
  cases hinputs : s.inputs with
  | nil => exact ⟨s, by simp only [step, hinputs]⟩
  | cons input rest =>
    cases input with
    | frame f =>
      rcases step_frame_cases hinputs with hmalformed | ⟨i, -, hstep⟩
      · exact ⟨_, hmalformed⟩
      · obtain ⟨t, ht, -⟩ := exec_answers i { s with inputs := rest }
        exact ⟨t, hstep.trans ht⟩
    | reset => exact ⟨_, by simp only [step, hinputs]; rfl⟩
    | cutOff f => exact ⟨_, by simp only [step, hinputs]; rfl⟩

/-- Settles O11, by the cases of a step: a frame adds one response, a cut-off at most one, a reset none. -/
theorem stepTakesInputsInOrder : Obligations.StepTakesInputsInOrder := by
  intro s t hstep
  rcases step_cases s t hstep with ⟨hinputs, rfl⟩ | ⟨f, rest, e, hinputs, -, rfl⟩ | ⟨f, rest, i, hinputs, -, hexec⟩ |
    ⟨rest, hinputs, rfl⟩ | ⟨f, rest, hinputs, rfl⟩
  · exact ⟨rfl, by rw [hinputs]; rfl, [], (List.append_nil _).symm, by simp⟩
  · exact ⟨rfl, by rw [hinputs]; rfl, _, rfl, le_rfl⟩
  · obtain ⟨hbuild, htaken, hresponses⟩ := exec_next_answers hexec
    exact ⟨hbuild, by rw [htaken, hinputs]; rfl, _, hresponses, le_rfl⟩
  · exact ⟨rfl, by rw [hinputs]; rfl, [], (List.append_nil _).symm, by simp⟩
  · exact ⟨rfl, by rw [hinputs]; rfl, _, rfl, by cases Config.cutOffResponse s.freeCount <;> simp⟩

/-- What O8 says of one response: `RLEN` holds the length, the code is one of R52, and a condition has no payload. -/
def ProperAnswer (code : Byte) (payload : List Byte) : Prop :=
  fromBe (be 4 payload.length) = payload.length ∧ code.toNat ≤ 7 ∧ (2 ≤ code.toNat → payload = [])

theorem properAnswer_nil {code : Byte} (h : code.toNat ≤ 7) : ProperAnswer code [] := ⟨by decide, h, fun _ => rfl⟩

/-- A normal end answers `OK`, or `ABSENT` for a query (R52). -/
theorem normalEnd_code_le_one (i : Instr) (s : State) : (normalEnd i s).2.1.toNat ≤ 1 := by
  cases i with
  | qry key =>
    simp only [normalEnd]
    split <;> decide
  | cfg | ins | rem | est | idx | dump | load | uni | int => exact Nat.zero_le 1

/-- The image of a filter of the invariant fits one frame (90 C9). -/
theorem image_length_lt {s : State} (hinv : s.inv = true) (hvalid : s.valid = true) : s.image.length < 2 ^ 32 := by
  obtain ⟨hbuild, -, hfilter⟩ := (inv_iff s).mp hinv
  obtain ⟨-, -, -, hfits, -⟩ := s.build.ok_iff.mp hbuild
  obtain ⟨-, hm, -⟩ := (paramsOk_iff ..).mp (hfilter hvalid).1
  have hbits : s.m.toNat * s.build.cw ≤ s.build.mMax * s.build.cw := Nat.mul_le_mul_right _ hm
  rw [State.image_length, arrayLen]
  omega

/-- `RLEN` can hold the length of every payload that a normal end answers (R47). -/
theorem normalEnd_payload_length_lt {i : Instr} {s : State} (hinv : s.inv = true)
    (hfilter : needsFilter i.opcode = true → s.valid = true) : (normalEnd i s).2.2.length < 2 ^ 32 := by
  cases i with
  | dump => exact image_length_lt hinv (hfilter rfl)
  | est => simp [normalEnd, State.estPayload]
  | idx => simp [normalEnd]
  | cfg | ins | qry | rem | load | uni | int => simp [normalEnd]

theorem properAnswer_normalEnd {i : Instr} {s : State} (hinv : s.inv = true)
    (hfilter : needsFilter i.opcode = true → s.valid = true) :
    ProperAnswer (normalEnd i s).2.1 (normalEnd i s).2.2 := by
  have hcode := normalEnd_code_le_one i s
  refine ⟨?_, by omega, fun h => by omega⟩
  rw [fromBe_be, Nat.mod_eq_of_lt]
  exact normalEnd_payload_length_lt hinv hfilter

/-- What a command that reports no condition has passed: the build has it, and its filter exists (R161). -/
theorem ready_of_reportedCondition_none {i : Instr} {s : State} (h : reportedCondition i s = none) :
    implemented s.build i.opcode = true ∧ (needsFilter i.opcode = true → s.valid = true) ∧ operandCheck i s = none := by
  unfold reportedCondition at h
  split at h
  · cases h
  · next himplemented =>
    split at h
    · cases h
    · next hfilter =>
      refine ⟨by simpa using himplemented, fun hneeds => ?_, h⟩
      by_contra hvalid
      exact hfilter ⟨hneeds, by simpa using hvalid⟩

theorem properAnswer_answerOf (i : Instr) {s : State} (hinv : s.inv = true) :
    ProperAnswer (answerOf i s).1 (answerOf i s).2 := by
  unfold answerOf
  cases hreported : reportedCondition i s with
  | some c => exact properAnswer_nil c.code_range.2
  | none => exact properAnswer_normalEnd hinv (ready_of_reportedCondition_none hreported).2.1

/-- Settles O8: a frame is answered by `Malformed` or by its command, and every answer of a command is proper. -/
theorem oneResponsePerCommandFrame : Obligations.OneResponsePerCommandFrame := by
  intro s t f rest hinv hinputs hstep
  rcases step_frame_cases hinputs with hmalformed | ⟨i, -, hexec⟩
  · cases hmalformed.symm.trans hstep
    exact ⟨rfl, 0x02#8, [], rfl, properAnswer_nil (by decide)⟩
  · obtain ⟨-, htaken, hresponses⟩ := exec_next_answers (hexec.symm.trans hstep)
    have hinv' : ({ s with inputs := rest } : State).inv = true := hinv
    exact ⟨htaken, _, _, hresponses, properAnswer_answerOf i hinv'⟩

/-- A command keeps the invariant: a condition changes nothing, and a normal end keeps it (R17). -/
theorem inv_exec {i : Instr} {s t : State} (hinv : s.inv = true) (hexec : exec i s = .next t) : t.inv = true := by
  rcases exec_next_cases i s t hexec with ⟨c, rfl⟩ | ⟨himplemented, hfilter, hcheck, rfl⟩
  · exact hinv
  · exact inv_normalEnd i s hinv himplemented hfilter hcheck

/-- Settles O9, by the cases of a step. -/
theorem stepKeepsTheInvariant : Obligations.StepKeepsTheInvariant := by
  intro s t hinv hstep
  rcases step_cases s t hstep with ⟨-, rfl⟩ | ⟨f, rest, e, -, -, rfl⟩ | ⟨f, rest, i, -, -, hexec⟩ | ⟨rest, -, rfl⟩ |
    ⟨f, rest, -, rfl⟩
  · exact hinv
  · exact hinv
  · exact inv_exec (s := { s with inputs := rest }) hinv hexec
  · exact inv_afterReset { s with inputs := rest } hinv
  · exact inv_afterReset { s with inputs := rest } hinv

/-- Settles O10: the check runs on both states. -/
theorem resetMeetsTheInvariant : Obligations.ResetMeetsTheInvariant := by
  refine ⟨?_, rfl, ?_⟩ <;> decide

/-- Settles O17: both reset inputs go through `afterReset`, which clears `VALID`; build and inputs stay (R165, R166). -/
theorem resetInputDestroysTheFilter : Obligations.ResetInputDestroysTheFilter := by
  refine ⟨fun s rest hinputs => ?_, fun s f rest hinputs => ?_⟩
  · exact ⟨({ s with inputs := rest } : State).afterReset, by simp only [step, hinputs], rfl, rfl, rfl, rfl⟩
  · exact ⟨({ s with inputs := rest } : State).afterCutOff, by simp only [step, hinputs], rfl, rfl, rfl⟩

/-! The table of R148. -/

/-- The row of R148 for a command that the build has. -/
def implementedCodes : Instr → List Nat
  | .cfg _ _ _ _ => [0, 3]
  | .ins _ => [0, 6]
  | .qry _ => [0, 1, 6]
  | .rem _ => [0, 5, 6]
  | .est => [0, 6]
  | .idx _ _ => [0, 2, 6]
  | .dump => [0, 6]
  | .load _ => [0, 2, 3]
  | .uni _ => [0, 2, 4, 6]
  | .int _ => [0, 2, 4, 6]

/-- R148's table depends on the build only through which commands it has (R145). -/
theorem endCodes_eq (b : Build) (i : Instr) :
    endCodes b i =
      if implemented b i.opcode = true then implementedCodes i else [Condition.unsupported.code.toNat] := by
  cases i with
  | rem | uni | int => simp [endCodes, Instr.opcode, implemented, implementedCodes, Condition.code]
  | cfg | ins | qry | est | idx | dump | load => rfl

theorem noFilter_mem_implementedCodes {i : Instr} (h : needsFilter i.opcode = true) :
    Condition.noFilter.code.toNat ∈ implementedCodes i := by
  cases i with
  | cfg | load => cases h
  | ins | qry | rem | est | idx | dump | uni | int => simp [implementedCodes, Condition.code]

theorem eq_malformed_of_imageCheck {b : Build} {m : Nat} {image : List Byte} {c : Condition}
    (h : imageCheck b m image = some c) : c = .malformed := by
  unfold imageCheck at h
  split at h
  · exact (Option.some.inj h).symm
  · split at h <;> cases h
    rfl

/-- The operand checks raise the conditions of the command's row only (R147 (4), (5)). -/
theorem operandCheck_mem_implementedCodes {i : Instr} {s : State} {c : Condition} (h : operandCheck i s = some c) :
    c.code.toNat ∈ implementedCodes i := by
  cases i with
  | ins | qry | est | dump => cases h
  | cfg | rem | idx =>
    simp only [operandCheck] at h
    split at h <;> cases h
    simp [implementedCodes, Condition.code]
  | load image =>
    rw [operandCheck, checkLoad_eq] at h
    split at h
    · cases eq_malformed_of_imageCheck h
      simp [implementedCodes, Condition.code]
    · cases h
      simp [implementedCodes, Condition.code]
  | uni image | int image =>
    rw [operandCheck, State.checkOperand_eq] at h
    split at h
    · cases eq_malformed_of_imageCheck h
      simp [implementedCodes, Condition.code]
    · cases h
      simp [implementedCodes, Condition.code]

theorem normalEnd_mem_implementedCodes (i : Instr) (s : State) : (normalEnd i s).2.1.toNat ∈ implementedCodes i := by
  cases i with
  | qry key =>
    simp only [normalEnd, implementedCodes]
    split <;> decide
  | cfg | ins | rem | est | idx | dump | load | uni | int => simp [normalEnd, codeOk, implementedCodes]

/-- Every answer has a code of the command's row (R148). -/
theorem answerOf_mem_endCodes (i : Instr) (s : State) : (answerOf i s).1.toNat ∈ endCodes s.build i := by
  rw [endCodes_eq, answerOf, reportedCondition]
  cases himplemented : implemented s.build i.opcode with
  | false => simp
  | true =>
    by_cases hmissing : needsFilter i.opcode = true ∧ s.valid = false
    · simpa [hmissing] using noFilter_mem_implementedCodes hmissing.1
    · cases hcheck : operandCheck i s with
      | some c => simpa [hmissing, hcheck] using operandCheck_mem_implementedCodes hcheck
      | none => simpa [hmissing, hcheck] using normalEnd_mem_implementedCodes i s

/-- Settles O14: the answer's code stands in the command's row. -/
theorem commandsEndOnlyWithTheirCodes : Obligations.CommandsEndOnlyWithTheirCodes := by
  intro i s t hexec
  exact ⟨_, _, (exec_next_answers hexec).2.2, answerOf_mem_endCodes i s⟩

end Sys2Proof.Machine

/-! What `VALID = 0` hides (10_state.md R22, R23): two states that differ in nothing else run alike. -/

namespace Sys2Proof.Machine

/-- The states of two runs that cannot be told apart: they are equal, or differ in hidden registers only. -/
def Indistinguishable (s t : State) : Prop := t = s ∨ SameButHidden s t

section
variable {s t : State}

theorem SameButHidden.responses (h : SameButHidden s t) : t.responses = s.responses := by
  obtain ⟨-, h⟩ := h
  rw [h]

theorem SameButHidden.inputs (h : SameButHidden s t) : t.inputs = s.inputs := by
  obtain ⟨-, h⟩ := h
  rw [h]

theorem SameButHidden.build (h : SameButHidden s t) : t.build = s.build := by
  obtain ⟨-, h⟩ := h
  rw [h]

theorem Indistinguishable.responses (h : Indistinguishable s t) : t.responses = s.responses := by
  rcases h with rfl | h
  · rfl
  · exact h.responses

/-- Taking an input or delivering a response keeps the hidden difference hidden. -/
theorem SameButHidden.with_channels (h : SameButHidden s t) (inputs : List Input) (responses : List (List Byte)) :
    SameButHidden { s with inputs := inputs, responses := responses }
      { t with inputs := inputs, responses := responses } := by
  obtain ⟨hvalid, h⟩ := h
  refine ⟨hvalid, ?_⟩
  rw [h]

theorem SameButHidden.answered (h : SameButHidden s t) (r : List Byte) :
    SameButHidden (s.answered r) (t.answered r) := by
  unfold State.answered
  rw [h.responses]
  simpa only [h.inputs] using h.with_channels s.inputs (s.responses ++ [r])

/-- A construction writes every register that was hidden. -/
theorem SameButHidden.construct_eq (h : SameButHidden s t) (m : Word64) (k : Word32) (sa sb : Word64) (a : Memory) :
    t.construct m k sa sb a = s.construct m k sa sb a := by
  obtain ⟨-, h⟩ := h
  rw [h]
  rfl

/-- The reset input writes every register that was hidden. -/
theorem SameButHidden.afterReset_eq (h : SameButHidden s t) : t.afterReset = s.afterReset := by
  obtain ⟨-, h⟩ := h
  rw [h]
  rfl

theorem SameButHidden.afterCutOff_eq (h : SameButHidden s t) : t.afterCutOff = s.afterCutOff := by
  obtain ⟨-, h⟩ := h
  rw [h]
  rfl

end

/-- The steps of two related states answer related states. -/
def Simulated (x y : Result) : Prop := ∃ s t, x = .next s ∧ y = .next t ∧ Indistinguishable s t

section
variable {s t : State}

theorem SameButHidden.simulated_raise (h : SameButHidden s t) (c : Condition) : Simulated (s.raise c) (t.raise c) :=
  ⟨_, _, rfl, rfl, .inr (h.answered _)⟩

/-- Every build has the constructions, and they need no filter (R145, R149). -/
theorem Constructs.ready {i : Instr} (hi : Constructs i) (b : Build) :
    implemented b i.opcode = true ∧ needsFilter i.opcode = false := by
  rcases hi with ⟨m, k, sa, sb, rfl⟩ | ⟨image, rfl⟩ <;> exact ⟨rfl, rfl⟩

/-- A construction reads no hidden register: its checks are of the operands, and then it writes all of them. -/
theorem SameButHidden.simulated_construction {i : Instr} (h : SameButHidden s t) (hi : Constructs i) :
    Simulated (exec i s) (exec i t) := by
  have hcheck : operandCheck i t = operandCheck i s := by
    rcases hi with ⟨m, k, sa, sb, rfl⟩ | ⟨image, rfl⟩ <;> simp only [operandCheck, h.build]
  have hend : normalEnd i t = normalEnd i s := by
    rcases hi with ⟨m, k, sa, sb, rfl⟩ | ⟨image, rfl⟩ <;> simp only [normalEnd, h.build, h.construct_eq]
  obtain ⟨himplemented, hneeds⟩ := hi.ready s.build
  rw [exec_eq, exec_eq, State.checked_ready s _ _ himplemented (by simp [hneeds]),
    State.checked_ready t _ _ (h.build ▸ himplemented) (by simp [hneeds]), hcheck, hend]
  cases operandCheck i s with
  | some c => exact h.simulated_raise c
  | none => exact ⟨_, _, rfl, rfl, .inl rfl⟩

/-- Without a filter every other command stops at a check that reads the build only (R145, R149). -/
theorem SameButHidden.simulated_exec (h : SameButHidden s t) (i : Instr) : Simulated (exec i s) (exec i t) := by
  by_cases hi : Constructs i
  · exact h.simulated_construction hi
  · have hvalid : s.valid = false := h.1
    have hvalid' : t.valid = false := by rw [h.2]; exact hvalid
    cases himplemented : implemented s.build i.opcode with
    | false =>
      rw [exec_eq, exec_eq, State.checked, State.checked, h.build, if_pos himplemented, if_pos himplemented]
      exact h.simulated_raise .unsupported
    | true =>
      have hneeds := needsFilter_of_not_constructs hi
      refine ⟨_, _, exec_noFilter himplemented hneeds hvalid, exec_noFilter ?_ hneeds hvalid', .inr (h.answered _)⟩
      rw [h.build]
      exact himplemented

/-- A frame is decoded in the build, which is not hidden (R53). -/
theorem SameButHidden.simulated_runFrame (h : SameButHidden s t) (f : List Byte) :
    Simulated (runFrame f s) (runFrame f t) := by
  unfold runFrame
  rw [h.build]
  cases decode s.build f with
  | error e => exact h.simulated_raise .malformed
  | ok i => exact h.simulated_exec i

theorem SameButHidden.simulated_step (h : SameButHidden s t) : Simulated (step s) (step t) := by
  have hinputs' : t.inputs = s.inputs := h.inputs
  unfold step
  rw [hinputs']
  cases s.inputs with
  | nil => exact ⟨_, _, rfl, rfl, .inr h⟩
  | cons input rest =>
    have hrest : SameButHidden { s with inputs := rest } { t with inputs := rest } := by
      simpa only [h.responses] using h.with_channels rest s.responses
    cases input with
    | frame f => exact hrest.simulated_runFrame f
    | reset => exact ⟨_, _, rfl, rfl, .inl hrest.afterReset_eq⟩
    | cutOff f => exact ⟨_, _, rfl, rfl, .inl hrest.afterCutOff_eq⟩

theorem Indistinguishable.simulated_step (h : Indistinguishable s t) : Simulated (step s) (step t) := by
  rcases h with rfl | h
  · obtain ⟨u, hu⟩ := everyStepAnswersNext t
    exact ⟨u, u, hu, hu, .inl rfl⟩
  · exact h.simulated_step

theorem Indistinguishable.simulated_runSteps (h : Indistinguishable s t) (n : Nat) :
    Simulated (runSteps n s) (runSteps n t) := by
  induction n generalizing s t with
  | zero => exact ⟨s, t, rfl, rfl, h⟩
  | succ n ih =>
    obtain ⟨u, v, hu, hv, huv⟩ := h.simulated_step
    simp only [runSteps, hu, hv]
    exact ih huv

end

/-- Settles O18: the runs of two states that differ in hidden registers stay indistinguishable. -/
theorem hiddenRegistersNeverShow : Obligations.HiddenRegistersNeverShow := by
  intro n s t s' hhidden hrun
  obtain ⟨u, v, hu, hv, huv⟩ := Indistinguishable.simulated_runSteps (.inr hhidden) n
  cases hu.symm.trans hrun
  exact ⟨v, hv, huv.responses, huv⟩

end Sys2Proof.Machine

/-! The image (44_image.md): what `DUMP` answers and `LOAD` takes (R125 to R133), and the operands of `UNI` and `INT`
(42_filter_core.md R99 to R101). -/

namespace Sys2Proof.Machine

/-! The checks of an image. -/

/-- The rest of an image passes exactly when its length and its padding are right (R128, R130). -/
theorem imageCheck_eq_none_iff (b : Build) (m : Nat) (image : List Byte) :
    imageCheck b m image = none ↔ imgLenOk b m image = true ∧ imgPaddingOk b m image = true := by
  unfold imageCheck
  cases imgLenOk b m image <;> cases imgPaddingOk b m image <;> decide

/-- `LOAD` takes the images that pass all checks of R130. -/
theorem checkLoad_eq_none_iff (b : Build) (image : List Byte) :
    checkLoad b image = none ↔ paramsOk b (imgM image) (imgK image) = true ∧
      imgLenOk b (imgM image).toNat image = true ∧ imgPaddingOk b (imgM image).toNat image = true := by
  rw [checkLoad_eq, ← imageCheck_eq_none_iff]
  split
  · next hparams => simp [hparams]
  · next hparams => simp [hparams]

/-- `UNI` and `INT` take the images that pass all checks of R99. -/
theorem State.checkOperand_eq_none_iff (s : State) (image : List Byte) :
    s.checkOperand image = none ↔ s.sameShape image = true ∧
      imgLenOk s.build s.m.toNat image = true ∧ imgPaddingOk s.build s.m.toNat image = true := by
  rw [State.checkOperand_eq, ← imageCheck_eq_none_iff]
  split
  · next hshape => simp [hshape]
  · next hshape => simp [hshape]

/-- The padding rule of R128, said of every bit of the array bytes behind the last cell. -/
theorem imgPaddingOk_iff (b : Build) (m : Nat) (image : List Byte) :
    imgPaddingOk b m image = true ↔ ∀ j, m * b.cw ≤ j → j < 8 * arrayLen b m → imgBit image j = false := by
  simp only [imgPaddingOk, List.all_eq_true, List.mem_range, Bool.not_eq_true']
  refine ⟨fun h j hlow hhigh => ?_, fun h j hj => h _ (by omega) (by omega)⟩
  have := h (j - m * b.cw) (by omega)
  rwa [Nat.add_sub_cancel' hlow] at this

/-- Bit `CW - 1 - t` of a cell read from an image is bit `t` of the cell's place in the string (R127). -/
theorem testBit_imgCell (b : Build) (image : List Byte) (p t : Nat) (ht : t < b.cw) :
    (imgCell b image p).testBit (b.cw - 1 - t) = imgBit image (p * b.cw + t) := by
  rw [imgCell, testBit_ofBits, show b.cw - 1 - (b.cw - 1 - t) = t by omega]
  simp
  omega

/-- The place of bit `t` of cell `p` in the string (R126). -/
theorem packBit_cell (b : Build) {m p t : Nat} (a : Memory) (hp : p < m) (ht : t < b.cw) :
    packBit b m a (p * b.cw + t) = (a.read p).testBit (b.cw - 1 - t) := by
  have hlast : (p + 1) * b.cw ≤ m * b.cw := Nat.mul_le_mul_right _ hp
  rw [Nat.add_mul, Nat.one_mul] at hlast
  have hdiv : (p * b.cw + t) / b.cw = p := by
    rw [Nat.mul_comm, Nat.mul_add_div (by omega), Nat.div_eq_of_lt ht, Nat.add_zero]
  have hmod : (p * b.cw + t) % b.cw = t := by rw [Nat.mul_comm, Nat.mul_add_mod, Nat.mod_eq_of_lt ht]
  simp only [packBit, hdiv, hmod, decide_eq_true (show p * b.cw + t < m * b.cw by omega), Bool.true_and]

/-- A bit of the packed array, read from its byte (R126). -/
theorem getLsbD_pack (b : Build) (m : Nat) (a : Memory) {j : Nat} (hj : j < 8 * arrayLen b m) :
    ((pack b m a).getD (j / 8) 0#8).getLsbD (7 - j % 8) = packBit b m a j := by
  have hbyte : j / 8 < arrayLen b m := by omega
  have hget : (pack b m a).getD (j / 8) 0#8 = packByte b m a (j / 8) := by
    simp [pack, hbyte]
  rw [hget, getLsbD_packByte _ _ _ _ _ (by omega)]
  congr 1
  omega

/-! `DUMP`. -/

/-- With a filter, `DUMP` answers the image (R129). -/
theorem exec_dump {s : State} (hvalid : s.valid = true) :
    exec .dump s = .next (s.answered (respFrame 0x00#8 s.image)) :=
  exec_normal .dump s rfl (fun _ => hvalid) rfl

/-- Settles O48: the array bytes are the packed cells, and a packed bit is the bit of its cell or padding. -/
theorem dumpPacksTheArray : Obligations.DumpPacksTheArray := by
  intro s hinv hvalid
  refine ⟨pack s.build s.m.toNat s.arr, exec_dump hvalid, pack_length .., fun p t hp ht => ?_, fun j hlow hhigh => ?_⟩
  · have hplace : p * s.build.cw + t < 8 * arrayLen s.build s.m.toNat := by
      have hlast : (p + 1) * s.build.cw ≤ s.m.toNat * s.build.cw := Nat.mul_le_mul_right _ hp
      rw [Nat.add_mul, Nat.one_mul] at hlast
      unfold arrayLen
      omega
    rw [getLsbD_pack _ _ _ hplace, packBit_cell _ _ hp ht]
  · rw [pack_length] at hhigh
    rw [getLsbD_pack _ _ _ hhigh]
    simp [packBit, Nat.not_lt.mpr hlow]

/-! `LOAD`. -/

/-- A construction whose checks pass answers a bare `OK`, with or without a filter before (R66, R130). -/
theorem exec_construction {i : Instr} {s : State} (hi : Constructs i) (hcheck : operandCheck i s = none) :
    exec i s = .next ((normalEnd i s).1.answered (bare 0x00#8)) := by
  obtain ⟨himplemented, hneeds⟩ := hi.ready s.build
  have hend : (normalEnd i s).2 = (codeOk, []) := by
    rcases hi with ⟨m, k, sa, sb, rfl⟩ | ⟨image, rfl⟩ <;> rfl
  rw [exec_normal i s himplemented (by simp [hneeds]) hcheck, respond_eq_answered, hend, respFrame_nil]
  rfl

/-- What `LOAD` leaves of an image that it takes (R130). -/
def State.loaded (s : State) (image : List Byte) : State :=
  s.construct (imgM image) (imgK image) (imgSA image) (imgSB image) (imgCells s.build image)

theorem exec_load {s : State} {image : List Byte} (h : checkLoad s.build image = none) :
    exec (.load image) s = .next ((s.loaded image).answered (bare 0x00#8)) :=
  exec_construction (.inr ⟨image, rfl⟩) h

/-- Settles O49: the checks of R130 are the premises, and a cell is read from its bits of the string. -/
theorem loadReadsTheArray : Obligations.LoadReadsTheArray := by
  intro s image hbuild hm hmMax hk hkMax hlen hpadding
  have hcheck : checkLoad s.build image = none := by
    refine (checkLoad_eq_none_iff ..).mpr ⟨(paramsOk_iff ..).mpr ⟨hm, hmMax, hk, hkMax⟩, decide_eq_true hlen, ?_⟩
    refine (imgPaddingOk_iff ..).mpr fun j hlow hhigh => hpadding j hlow ?_
    unfold arrayLen at hhigh
    omega
  refine ⟨imgCells s.build image, exec_load hcheck, fun p hp => ?_, fun p hp => ?_⟩
  · exact (Memory.read_ofFn ..).trans (if_neg (Nat.not_lt.mpr hp))
  · have hread : (imgCells s.build image).read p = imgCell s.build image p :=
      (Memory.read_ofFn ..).trans (if_pos hp)
    rw [hread]
    exact ⟨ofBits_lt .., fun t ht => testBit_imgCell _ _ _ _ ht⟩

/-- A filter of the invariant that fits block `t` is taken there from its image (R132). -/
theorem checkLoad_image {s t : State} (hinv : s.inv = true) (hvalid : s.valid = true)
    (hcw : t.build.cw = s.build.cw) (hm : s.m.toNat ≤ t.build.mMax) (hk : s.k.toNat ≤ t.build.kMax) :
    checkLoad t.build s.image = none := by
  obtain ⟨him, hik, -, -⟩ := s.image_header
  obtain ⟨hm1, -, hk1, -⟩ := (paramsOk_iff ..).mp (((inv_iff s).mp hinv).2.2 hvalid).1
  rw [checkLoad_eq_none_iff, him, hik]
  refine ⟨(paramsOk_iff ..).mpr ⟨hm1, hm, hk1, hk⟩, ?_, ?_⟩
  · simp [imgLenOk, arrayLen, hcw]
  · rw [State.image_eq, ← pack_congr _ _ hcw]
    exact imgPaddingOk_append_pack _ _ _ _ (by simp)

/-- The cells read from the image are the cells of the filter (R127, R133). -/
theorem imgCells_image {s t : State} (hinv : s.inv = true) (hvalid : s.valid = true)
    (hcw : t.build.cw = s.build.cw) : imgCells t.build s.image = s.arr := by
  refine Memory.ext_read _ _ (Memory.wf_ofFn ..) ((inv_iff s).mp hinv).2.1 fun p => ?_
  rw [imgCells, Memory.read_ofFn, s.image_header.1]
  split
  · next hp => rw [imgCell_congr _ _ hcw, imgCell_image hinv hvalid hp]
  · next hp => exact ((arr_le s hinv hvalid p).2 (Nat.le_of_not_lt hp)).symm

/-- `LOAD` of a dumped image copies the filter (R133). -/
theorem loaded_image {s : State} (t : State) (hinv : s.inv = true) (hvalid : s.valid = true)
    (hcw : t.build.cw = s.build.cw) :
    t.loaded s.image = { t with valid := true, m := s.m, k := s.k, sa := s.sa, sb := s.sb, arr := s.arr } := by
  obtain ⟨him, hik, hisa, hisb⟩ := s.image_header
  rw [State.loaded, him, hik, hisa, hisb, imgCells_image hinv hvalid hcw]
  rfl

/-- Delivering a response does not change the image. -/
@[simp] theorem State.image_answered (s : State) (r : List Byte) : (s.answered r).image = s.image := rfl

/-- An image that `LOAD` takes is the image of what `LOAD` makes of it (R128). -/
theorem image_loaded {s : State} {image : List Byte} (hcw : 1 ≤ s.build.cw) (h : checkLoad s.build image = none) :
    (s.loaded image).image = image := by
  obtain ⟨-, hlen, hpadding⟩ := (checkLoad_eq_none_iff ..).mp h
  have hheader : 28 ≤ image.length := by
    rw [of_decide_eq_true hlen]
    omega
  calc (s.loaded image).image
      = (be 8 (imgM image).toNat ++ be 4 (imgK image).toNat ++ be 8 (imgSA image).toNat ++ be 8 (imgSB image).toNat) ++
          pack s.build (imgM image).toNat (imgCells s.build image) := State.image_eq _
    _ = image.take 28 ++ image.drop 28 := by
        rw [header_bytes image hheader, imgCells, pack_imgCells _ hcw _ _ hlen hpadding]
    _ = image := List.take_append_drop ..

/-- Settles O50: `LOAD` takes the image and copies every register and every cell; the image is then dumped again. -/
theorem dumpThenLoadRestoresTheFilter : Obligations.DumpThenLoadRestoresTheFilter := by
  intro s t hinv hvalid hvariant hcw hm hk
  have hcheck : checkLoad t.build s.image = none := checkLoad_image hinv hvalid hcw hm hk
  have hcopy := loaded_image t hinv hvalid hcw
  have hpos : 1 ≤ t.build.cw := hcw ▸ cw_pos _ ((inv_iff s).mp hinv).1
  refine ⟨s.image, _, exec_dump hvalid, rfl, ?_, ?_⟩
  · rw [exec_load hcheck, hcopy]
  · rw [exec_dump rfl, State.image_answered, ← hcopy, image_loaded hpos hcheck]

/-- Settles O51: only a normal end answers `OK`, and then the image passed every check, so nothing of it is lost. -/
theorem loadThenDumpReturnsTheImage : Obligations.LoadThenDumpReturnsTheImage := by
  intro s t image hbuild hexec hok
  rcases exec_next_cases _ s t hexec with ⟨c, rfl⟩ | ⟨-, -, hcheck, -⟩
  · rw [lastResponse_answered, Option.some.injEq, bare_inj] at hok
    cases c <;> cases hok
  · cases (exec_load hcheck).symm.trans hexec
    rw [exec_dump rfl, State.image_answered, image_loaded (cw_pos _ hbuild) hcheck]

/-! `UNI` and `INT`. -/

/-- In a legal baseline build a cell has one bit (R6). -/
theorem cw_baseline {b : Build} (hbuild : b.ok = true) (hbaseline : b.variant = .baseline) : b.cw = 1 := by
  have hcw := (b.ok_iff.mp hbuild).1
  simpa [Build.cwOk, hbaseline] using hcw

/-- An operand image of the filter's shape with `ceil(M / 8)` array bytes and zero padding passes R99. -/
theorem checkOperand_baseline {s : State} {image : List Byte} (hcw : s.build.cw = 1) (hm : imgM image = s.m)
    (hk : imgK image = s.k) (hsa : imgSA image = s.sa) (hsb : imgSB image = s.sb)
    (hlen : image.length = 28 + (s.m.toNat + 7) / 8)
    (hpadding : ∀ j, s.m.toNat ≤ j → j < 8 * ((s.m.toNat + 7) / 8) → imgBit image j = false) :
    s.checkOperand image = none := by
  have harray : arrayLen s.build s.m.toNat = (s.m.toNat + 7) / 8 := by rw [arrayLen, hcw, Nat.mul_one]
  refine (s.checkOperand_eq_none_iff image).mpr ⟨(s.sameShape_iff image).mpr ⟨hm, hk, hsa, hsb⟩, ?_, ?_⟩
  · rw [imgLenOk, harray]
    exact decide_eq_true hlen
  · rwa [imgPaddingOk_iff, harray, hcw, Nat.mul_one]

/-- A cell of one bit read from an image (R126, R127). -/
theorem imgCell_baseline {b : Build} (hcw : b.cw = 1) (image : List Byte) (p : Nat) :
    imgCell b image p = if imgBit image p = true then 1 else 0 := by
  rw [imgCell, hcw]
  simp [ofBits]

/-- `INT` leaves in each cell below `M` the AND of the two cells, and no cell from `M` on (R101). -/
theorem read_normalEnd_int (image : List Byte) (s : State) (p : Nat) :
    (normalEnd (.int image) s).1.arr.read p =
      if p < s.m.toNat then s.arr.read p &&& imgCell s.build image p else 0 :=
  Memory.read_ofFn ..

/-- A cell of a baseline filter is 0 or 1 (R17 (b)). -/
theorem read_le_one {s : State} (hinv : s.inv = true) (hvalid : s.valid = true)
    (hbaseline : s.build.variant = .baseline) (p : Nat) : s.arr.read p ≤ 1 := by
  rw [← cmax_baseline _ ((inv_iff s).mp hinv).1 hbaseline]
  exact (arr_le s hinv hvalid p).1

theorem or_le_one_and_pos_iff {x : Nat} (b : Bool) (hx : x ≤ 1) :
    (x ||| if b = true then 1 else 0) ≤ 1 ∧ (0 < (x ||| if b = true then 1 else 0) ↔ 0 < x ∨ b = true) := by
  interval_cases x <;> cases b <;> decide

theorem and_le_one_and_pos_iff {x : Nat} (b : Bool) (hx : x ≤ 1) :
    (x &&& if b = true then 1 else 0) ≤ 1 ∧ (0 < (x &&& if b = true then 1 else 0) ↔ 0 < x ∧ b = true) := by
  interval_cases x <;> cases b <;> decide

/-- Settles O41: the operand passes R99, and the OR of two one-bit cells is the OR of their bits. -/
theorem uniIsTheBitwiseOr : Obligations.UniIsTheBitwiseOr := by
  intro s image hinv hvalid hbaseline hm hk hsa hsb hlen hpadding
  have hcw := cw_baseline ((inv_iff s).mp hinv).1 hbaseline
  have hexec : exec (.uni image) s = .next ((normalEnd (.uni image) s).1.answered (bare 0x00#8)) :=
    exec_normal_bare (by simp [Instr.opcode, implemented, hbaseline]) hvalid
      (checkOperand_baseline hcw hm hk hsa hsb hlen hpadding) rfl
  refine ⟨(normalEnd (.uni image) s).1.arr, hexec, fun p hp => ?_, fun p hp => ?_⟩
  · rw [read_normalEnd_uni, if_neg (Nat.not_lt.mpr hp)]
  · rw [read_normalEnd_uni, if_pos hp, imgCell_baseline hcw]
    exact or_le_one_and_pos_iff (imgBit image p) (read_le_one hinv hvalid hbaseline p)

/-- Settles O42: the operand passes R99, and the AND of two one-bit cells is the AND of their bits. -/
theorem intIsTheBitwiseAnd : Obligations.IntIsTheBitwiseAnd := by
  intro s image hinv hvalid hbaseline hintersect hm hk hsa hsb hlen hpadding
  have hcw := cw_baseline ((inv_iff s).mp hinv).1 hbaseline
  have hexec : exec (.int image) s = .next ((normalEnd (.int image) s).1.answered (bare 0x00#8)) :=
    exec_normal_bare (by simp [Instr.opcode, implemented, hbaseline, hintersect]) hvalid
      (checkOperand_baseline hcw hm hk hsa hsb hlen hpadding) rfl
  refine ⟨(normalEnd (.int image) s).1.arr, hexec, fun p hp => ?_, fun p hp => ?_⟩
  · rw [read_normalEnd_int, if_neg (Nat.not_lt.mpr hp)]
  · rw [read_normalEnd_int, if_pos hp, imgCell_baseline hcw]
    exact and_le_one_and_pos_iff (imgBit image p) (read_le_one hinv hvalid hbaseline p)

end Sys2Proof.Machine

/-! Construction by `CFG` (40_construct.md R65, R66) and the sizes that `CREATE` sends (R58, R68). -/

namespace Sys2Proof.Machine

/-- A filter is Empty when every cell below `M` is 0 (10_state.md R15). -/
theorem isEmpty_iff (s : State) :
    s.isEmpty = true ↔ s.valid = true ∧ ∀ p, p < s.m.toNat → s.arr.read p = 0 := by
  simp [State.isEmpty, State.ones, List.countP_eq_zero, Memory.isSet]

/-- Settles O19: the parameters are accepted, and an array that lists no cell reads 0 everywhere. -/
theorem cfgConstructsAnEmptyFilter : Obligations.CfgConstructsAnEmptyFilter := by
  intro s m k sa sb hm hmMax hk hkMax
  have hcheck : operandCheck (.cfg m k sa sb) s = none :=
    if_pos ((paramsOk_iff ..).mpr ⟨hm, hmMax, hk, hkMax⟩)
  refine ⟨[], exec_construction (.inl ⟨m, k, sa, sb, rfl⟩) hcheck, Memory.read_nil, ?_⟩
  exact (isEmpty_iff _).mpr ⟨rfl, fun p _ => Memory.read_nil p⟩

/-- Settles O20: each clause contradicts `ParamsOK`. -/
theorem cfgRefusesBadParameters : Obligations.CfgRefusesBadParameters := by
  intro s m k sa sb hbad
  have hparams : ¬ paramsOk s.build m k = true := by
    rw [paramsOk_iff]
    omega
  have hcheck : operandCheck (.cfg m k sa sb) s = some .invalidParameters := if_neg hparams
  exact exec_of_operandCheck (i := .cfg m k sa sb) rfl nofun hcheck

/-- `CREATE`'s `m` is positive: `ln p` is negative for `0 < p < 1` (R69 (a)). -/
theorem one_le_of_isSizeM {n m : ℕ} {p : ℝ} (hn : 0 < n) (hp : 0 < p) (hp1 : p < 1) (h : IsSizeM n p m) : 1 ≤ m := by
  have hlog : Real.log p < 0 := Real.log_neg hp hp1
  have hlog2 : 0 < Real.log 2 := Real.log_pos one_lt_two
  have hnum : 0 < -((n : ℝ) * Real.log p) := neg_pos.mpr (mul_neg_of_pos_of_neg (Nat.cast_pos.mpr hn) hlog)
  rw [IsSizeM] at h
  rw [h]
  exact Nat.ceil_pos.mpr (div_pos hnum (by positivity))

theorem one_le_of_isSizeK {n m k : ℕ} (h : IsSizeK n m k) : 1 ≤ k := by
  rw [IsSizeK] at h
  rw [h]
  exact le_max_left ..

/-- Settles O22: the formulas always have values, and those that fit the fields of `CFG` are sent as they are. -/
theorem createSendsPositiveSizes : Obligations.CreateSendsPositiveSizes := by
  refine ⟨fun n p sa sb => ?_, fun n p sa sb i hcreates => ?_⟩
  · by_cases hlegal : 0 < n ∧ 0 < p ∧ p < 1
    · exact ⟨_, .inr ⟨hlegal, _, _, rfl, rfl, rfl⟩⟩
    · exact ⟨_, .inl ⟨hlegal, rfl⟩⟩
  · rcases hcreates with ⟨-, hrefused⟩ | ⟨⟨hn, hp, hp1⟩, m, k, hm, hk, hsent⟩
    · cases hrefused
    · split at hsent
      · next hfits =>
        cases hsent
        refine ⟨hn, hp, hp1, _, _, rfl, ?_, ?_⟩
        · rw [BitVec.toNat_ofNat, Nat.mod_eq_of_lt hfits.1]
          exact one_le_of_isSizeM (by omega) hp hp1 hm
        · rw [BitVec.toNat_ofNat, Nat.mod_eq_of_lt hfits.2]
          exact one_le_of_isSizeK hk
      · cases hsent

end Sys2Proof.Machine

/-! The Hash Generator (41_hash_index.md): the positions of a key (R78, R83), their corner cases (R79, R80), and `IDX`
(R82). -/

namespace Sys2Proof.Machine

/-- Settles O24: remainders add, and the two forms are evaluated on the rule's input. -/
theorem incrementalFormOfPositions : Obligations.IncrementalFormOfPositions := by
  refine ⟨fun ha hb m i => ⟨?_, ?_⟩, ?_, ?_⟩
  · rw [posOf, Nat.zero_mul, Nat.add_zero]
  · rw [posOf, posOf, Nat.succ_mul, ← Nat.add_assoc, Nat.add_mod]
  · decide
  · decide

/-- `mult` counts the indices that give the position (R83). -/
theorem State.mult_eq_card (s : State) (key : List Byte) (p : Nat) :
    s.mult key p = ((Finset.range s.k.toNat).filter (fun i => s.pos key i = p)).card := by
  rw [State.mult, State.posList, List.count, List.countP_map]
  exact Nat.count_eq_card_filter_range (fun i => s.pos key i = p) _

theorem State.posList_getElem? (s : State) (key : List Byte) {i : Nat} (hi : i < s.k.toNat) :
    (s.posList key)[i]? = some (s.pos key i) := by
  simp [State.posList, hi]

/-- Settles O25: the list is `Pos` mapped over the indices below `K`. -/
theorem positionListOfAKey : Obligations.PositionListOfAKey := by
  intro s key hinv hvalid
  exact ⟨s.posList_length key, fun i hi => s.posList_getElem? key hi, s.posList_lt key (one_le_m hinv hvalid),
    s.mult_eq_card key⟩

/-- R80 (a): in a filter of one cell every position is 0. -/
theorem State.posList_of_m_one {s : State} (key : List Byte) (hm : s.m.toNat = 1) :
    s.posList key = List.replicate s.k.toNat 0 := by
  refine List.eq_replicate_iff.mpr ⟨s.posList_length key, fun p hp => ?_⟩
  have := s.posList_lt key hm.ge p hp
  omega

/-- R80 (b): more positions than cells cannot all differ. -/
theorem State.not_nodup_posList {s : State} (key : List Byte) (hm : 1 ≤ s.m.toNat) (hk : s.m.toNat < s.k.toNat) :
    ¬ (s.posList key).Nodup := by
  intro hnodup
  have hsub : (s.posList key).toFinset ⊆ Finset.range s.m.toNat := fun p hp =>
    Finset.mem_range.mpr (s.posList_lt key hm p (List.mem_toFinset.mp hp))
  have hcard := Finset.card_le_card hsub
  rw [List.toFinset_card_of_nodup hnodup, State.posList_length, Finset.card_range] at hcard
  omega

/-- R80 (c): a base hash `h_b` that `M` divides leaves every position at `h_a`. -/
theorem State.pos_of_dvd {s : State} {key : List Byte} (h : s.m.toNat ∣ (s.hashB key).toNat) (i : Nat) :
    s.pos key i = (s.hashA key).toNat % s.m.toNat := by
  rw [State.pos, posOf, Nat.add_mod, Nat.mod_eq_zero_of_dvd (h.mul_left i), Nat.add_zero, Nat.mod_mod]

/-- Over `n` indices the positions advance by `n h_b`, so they repeat when `M` divides that. -/
theorem State.pos_add {s : State} {key : List Byte} {n : Nat} (h : s.m.toNat ∣ n * (s.hashB key).toNat) (i : Nat) :
    s.pos key (i + n) = s.pos key i := by
  rw [State.pos, State.pos, posOf, posOf, Nat.add_mul, ← Nat.add_assoc, Nat.add_mod,
    Nat.mod_eq_zero_of_dvd h, Nat.add_zero, Nat.mod_mod]

/-- R80 (d): the period `M / gcd(M, h_b mod M)` times `h_b` is a multiple of `M`. -/
theorem dvd_period_mul (m h : Nat) : m ∣ m / Nat.gcd m (h % m) * h := by
  have hgcd : Nat.gcd m (h % m) = Nat.gcd m h := by rw [Nat.gcd_comm, ← Nat.gcd_rec]
  rw [hgcd, Nat.div_mul_right_comm (Nat.gcd_dvd_left m h), Nat.mul_div_assoc _ (Nat.gcd_dvd_right m h)]
  exact Nat.dvd_mul_right ..

/-- R80 (e): with equal seeds both base hashes are the same. -/
theorem State.pos_of_seeds_eq {s : State} (key : List Byte) (h : s.sa = s.sb) (i : Nat) :
    s.pos key i = ((i + 1) * (s.hashA key).toNat) % s.m.toNat := by
  have hhash : s.hashB key = s.hashA key := by rw [State.hashA, State.hashB, h]
  rw [State.pos, posOf, hhash, Nat.succ_mul, Nat.add_comm]

/-- Every entry of the list is the position of an index (R83). -/
theorem State.mem_posList {s : State} {key : List Byte} {p : Nat} :
    p ∈ s.posList key ↔ ∃ i, i < s.k.toNat ∧ s.pos key i = p := by
  simp [State.posList]

/-- Settles O26, clause by clause. -/
theorem redundantPositions : Obligations.RedundantPositions := by
  intro s key hinv hvalid
  refine ⟨fun hm p hp => ?_, s.not_nodup_posList key (one_le_m hinv hvalid), fun hzero p hp => ?_,
    s.pos_add (dvd_period_mul ..), s.pos_of_seeds_eq key⟩
  · rw [s.posList_of_m_one key hm] at hp
    exact List.eq_of_mem_replicate hp
  · obtain ⟨i, -, rfl⟩ := State.mem_posList.mp hp
    exact s.pos_of_dvd (Nat.dvd_of_mod_eq_zero hzero) i

/-- The header of a response with a payload of 8 bytes (R47). -/
theorem respFrame_be_eight (c : Byte) (v : Nat) :
    respFrame c (be 8 v) = [c, 0#8, 0#8, 0#8, 0#8, 0#8, 0#8, 8#8] ++ be 8 v := by
  rw [respFrame, be_length]
  rfl

/-- A number below `M` fits the 8 bytes that it is answered in. -/
theorem fromBe_be_eight_of_le {s : State} {v : Nat} (h : v ≤ s.m.toNat) : fromBe (be 8 v) = v := by
  have := s.m.isLt
  rw [fromBe_be, Nat.mod_eq_of_lt (by omega)]

/-- Settles O27: below `K` the index is accepted, and its position, being below `M`, fits 8 bytes. -/
theorem idxAnswersThePosition : Obligations.IdxAnswersThePosition := by
  intro s i key hinv hvalid hi
  have hlt : s.pos key i.toNat < s.m.toNat := Nat.mod_lt _ (one_le_m hinv hvalid)
  refine ⟨s.pos key i.toNat, rfl, hlt, fromBe_be_eight_of_le hlt.le, ?_⟩
  rw [exec_normal (.idx i key) s rfl (fun _ => hvalid) (if_pos hi), ← respFrame_be_eight]
  rfl

end Sys2Proof.Machine

/-! The Filter Core (42_filter_core.md): the cells after `INS` (R91, R92), the answers of `QRY` (R93), what never
lowers a cell (10_state.md R17 (d)), the commands that only read (20_memory.md R36), and the statistics of `EST`
(R96 to R98). -/

namespace Sys2Proof.Machine

/-! `INS`. -/

/-- With a filter, `INS` ends normally in both builds (R91, R94). -/
theorem exec_ins {s : State} (key : List Byte) (hvalid : s.valid = true) :
    exec (.ins key) s = .next ((normalEnd (.ins key) s).1.answered (bare 0x00#8)) :=
  exec_normal_bare rfl hvalid rfl rfl

/-- The cells after `INS` in a baseline build (R91). -/
theorem read_normalEnd_ins_baseline {s : State} (key : List Byte) (hinv : s.inv = true)
    (hbaseline : s.build.variant = .baseline) (p : Nat) :
    (normalEnd (.ins key) s).1.arr.read p = if p ∈ s.posList key then 1 else s.arr.read p :=
  read_bumpAll_baseline _ hbaseline _ _ ((inv_iff s).mp hinv).2.1 p

/-- Settles O28: `INS` always ends normally with a filter, and its cells are those of `bumpAll`. -/
theorem insSetsTheBits : Obligations.InsSetsTheBits :=
  fun s key hinv hvalid hbaseline =>
    ⟨(normalEnd (.ins key) s).1.arr, exec_ins key hvalid, read_normalEnd_ins_baseline key hinv hbaseline⟩

/-- The count of set cells rises with the cells (R92). -/
theorem ones_mono {s t : State} (hm : t.m = s.m) (hle : ∀ p, s.arr.read p ≤ t.arr.read p) : s.ones ≤ t.ones := by
  rw [State.ones, State.ones, hm]
  refine List.countP_mono_left fun p _ hset => ?_
  rw [Memory.isSet_iff] at hset ⊢
  exact Nat.lt_of_lt_of_le hset (hle p)

/-- The cells that `INS` changes lie at the key's positions, of which there are `K` with repetition (R92). -/
theorem card_changed_le {s t : State} {key : List Byte}
    (hread : ∀ p, t.arr.read p = if p ∈ s.posList key then 1 else s.arr.read p) :
    ((Finset.range s.m.toNat).filter (fun p => t.arr.read p ≠ s.arr.read p)).card ≤ min s.k.toNat s.m.toNat := by
  have hsub : (Finset.range s.m.toNat).filter (fun p => t.arr.read p ≠ s.arr.read p) ⊆ (s.posList key).toFinset := by
    intro p hp
    obtain ⟨-, hchanged⟩ := Finset.mem_filter.mp hp
    by_contra hnot
    exact hchanged ((hread p).trans (if_neg fun hmem => hnot (List.mem_toFinset.mpr hmem)))
  refine le_min ?_ ?_
  · calc _ ≤ (s.posList key).toFinset.card := Finset.card_le_card hsub
      _ ≤ (s.posList key).length := List.toFinset_card_le _
      _ = s.k.toNat := s.posList_length key
  · calc _ ≤ (Finset.range s.m.toNat).card := Finset.card_filter_le ..
      _ = s.m.toNat := Finset.card_range _

/-- Settles O30: a cell that is 1 stays 1, and only cells at positions of the key become 1. -/
theorem insIsIdempotentAndDenser : Obligations.InsIsIdempotentAndDenser := by
  intro s t u key hinv hvalid hbaseline hfirst hsecond
  have hinvt := inv_exec hinv hfirst
  have hinvu := inv_exec hinvt hsecond
  rw [exec_ins key hvalid, Host.Outcome.next.injEq] at hfirst
  have hvalidt : t.valid = true := hfirst ▸ hvalid
  rw [exec_ins key hvalidt, Host.Outcome.next.injEq] at hsecond
  subst hfirst hsecond
  have hread := read_normalEnd_ins_baseline key hinv hbaseline
  refine ⟨?_, ones_mono rfl fun p => read_le_normalEnd hinv hvalid hbaseline rfl p, card_changed_le hread⟩
  refine Memory.ext_read _ _ ((inv_iff _).mp hinvu).2.1 ((inv_iff _).mp hinvt).2.1 fun p => ?_
  refine (read_normalEnd_ins_baseline key hinvt hbaseline p).trans (ite_eq_right_iff.mpr fun hp => ?_)
  exact ((hread p).trans (if_pos hp)).symm

/-- Settles O43: the commands left are those of R102 and `REM`, which a baseline build does not have. -/
theorem baselineBitsNeverClear : Obligations.BaselineBitsNeverClear := by
  intro i s t hinv hbaseline hvalid hcfg hload hint hexec
  rcases exec_next_cases i s t hexec with ⟨c, rfl⟩ | ⟨himplemented, -, -, rfl⟩
  · exact ⟨fun p => le_rfl, le_rfl⟩
  · have hkeeps : keepsBits i = true := by
      cases i with
      | cfg m k sa sb => exact absurd rfl (hcfg m k sa sb)
      | load image => exact absurd rfl (hload image)
      | int image => exact absurd rfl (hint image)
      | rem key => simp [Instr.opcode, implemented, hbaseline] at himplemented
      | ins | qry | est | idx | dump | uni => rfl
    have hle := read_le_normalEnd hinv hvalid hbaseline hkeeps
    have hsame := (normalEnd_sameParameters_or_constructs i s).resolve_right
      fun hc => not_constructs_of_keepsBits hkeeps hc.1
    exact ⟨hle, ones_mono hsame.1 hle⟩

/-! `QRY`. -/

/-- `QRY` answers `ABSENT` when a cell at a position of the key is 0 (R93). -/
theorem exec_qry_absent {s : State} {key : List Byte} (hvalid : s.valid = true)
    (hzero : ∃ p ∈ s.posList key, s.arr.read p = 0) : exec (.qry key) s = .next (s.answered (bare 0x01#8)) := by
  obtain ⟨p, hp, hread⟩ := hzero
  have hnot : ¬ allSet s.arr (s.posList key) = true := by
    rw [allSet_iff]
    exact fun h => absurd (h p hp) (by omega)
  rw [exec_qry, State.qryCode, if_pos hvalid, if_neg hnot]
  rfl

/-- Settles O31: the two answers. -/
theorem qryTestsEveryPosition : Obligations.QryTestsEveryPosition :=
  fun s key hvalid => ⟨fun hset => (exec_qry_ok_iff s key).mpr ⟨hvalid, hset⟩, exec_qry_absent hvalid⟩

/-- `REM` raises `NotPresent` when some counter is below its multiplicity (R115, R147). -/
theorem exec_rem_notPresent {s : State} {key : List Byte} (hcounting : s.build.variant = .counting)
    (hvalid : s.valid = true) (hlow : ∃ p, s.arr.read p < s.mult key p) :
    exec (.rem key) s = .next (s.answered (bare 0x05#8)) := by
  obtain ⟨-, -, -, -, -, -, -, -, hrem⟩ := conditionPriority
  exact hrem s key hcounting hvalid hlow

/-- With a filter every key has a first position, since `K >= 1` (R17 (a)). -/
theorem pos_zero_mem_posList {s : State} (key : List Byte) (hinv : s.inv = true) (hvalid : s.valid = true) :
    s.pos key 0 ∈ s.posList key := by
  obtain ⟨-, -, hk, -⟩ := (paramsOk_iff ..).mp (((inv_iff s).mp hinv).2.2 hvalid).1
  exact State.mem_posList.mpr ⟨0, hk, rfl⟩

/-- Settles O36: the cell at the key's first position is 0, and its multiplicity is not. -/
theorem emptyFilterHasNoMember : Obligations.EmptyFilterHasNoMember := by
  intro s key hinv hempty
  obtain ⟨hvalid, hzeros⟩ := (isEmpty_iff s).mp hempty
  have hmem := pos_zero_mem_posList key hinv hvalid
  have hzero := hzeros _ (s.posList_lt key (one_le_m hinv hvalid) _ hmem)
  have hlow : s.arr.read (s.pos key 0) < s.mult key (s.pos key 0) := by
    rw [hzero]
    exact List.count_pos_iff.mpr hmem
  exact ⟨exec_qry_absent hvalid ⟨_, hmem, hzero⟩, fun hcounting => exec_rem_notPresent hcounting hvalid ⟨_, hlow⟩⟩

/-! The commands that only read. -/

/-- The four commands of R36. -/
def Reads (i : Instr) : Prop := (∃ key, i = .qry key) ∨ i = .est ∨ i = .dump ∨ ∃ n key, i = .idx n key

/-- A reader changes nothing but the responses, however it ends (R36). -/
theorem Reads.exec_eq {i : Instr} (h : Reads i) (s : State) :
    exec i s = .next (s.answered (respFrame (answerOf i s).1 (answerOf i s).2)) := by
  have hend : (normalEnd i s).1 = s := by
    rcases h with ⟨key, rfl⟩ | rfl | rfl | ⟨n, key, rfl⟩ <;> rfl
  rcases exec_reported_cases i s with ⟨c, hc, hraise⟩ | ⟨hnone, hfinish⟩
  · rw [hraise, answerOf, hc]
    rfl
  · rw [hfinish, hend, answerOf, hnone]
    rfl

/-- No answer depends on the responses delivered before. -/
theorem answerOf_answered (i : Instr) (s : State) (r : List Byte) : answerOf i (s.answered r) = answerOf i s := by
  cases i <;> rfl

/-- Settles O37: a reader changes the responses only, and its answer does not depend on them. -/
theorem readersChangeNothing : Obligations.ReadersChangeNothing := by
  intro i s t u hreads hfirst hsecond
  cases (Reads.exec_eq hreads s).symm.trans hfirst
  cases (Reads.exec_eq hreads _).symm.trans hsecond
  refine ⟨rfl, ?_⟩
  rw [lastResponse_answered, lastResponse_answered, answerOf_answered]

/-! `EST`. -/

/-- The count of set cells is the size of a finite set (R96). -/
theorem State.ones_eq_card (s : State) :
    s.ones = ((Finset.range s.m.toNat).filter (fun p => 0 < s.arr.read p)).card :=
  Nat.count_eq_card_filter_range (fun p => 0 < s.arr.read p) _

theorem State.ones_le (s : State) : s.ones ≤ s.m.toNat := by
  simpa [State.ones] using List.countP_le_length (p := s.arr.isSet) (l := List.range s.m.toNat)

/-- A cell of a canonical array is set exactly when it is listed. -/
theorem Memory.read_pos_iff (a : Memory) (hwf : a.wf = true) (p : Nat) : 0 < a.read p ↔ p ∈ a.map Prod.fst := by
  induction a with
  | nil => simp
  | cons c a ih =>
    obtain ⟨q, v⟩ := c
    obtain ⟨hv, -, ha⟩ := (Memory.wf_cons ..).mp hwf
    rw [Memory.read_cons, List.map_cons, List.mem_cons]
    by_cases hpq : p = q
    · simp [hpq, Nat.pos_of_ne_zero hv]
    · rw [if_neg (Ne.symm hpq), ih ha]
      simp [hpq]

theorem Memory.nodup_positions (a : Memory) (hwf : a.wf = true) : (a.map Prod.fst).Nodup := by
  obtain ⟨-, hrising⟩ := a.wf_iff_pairwise.mp hwf
  exact List.pairwise_map.mpr (hrising.imp fun h => h.ne)

/-- Settles O39: the set cells below `M` are the listed positions, each of which is listed once. -/
theorem onesIsTheListedLength : Obligations.OnesIsTheListedLength := by
  intro s hinv hvalid
  refine ⟨?_, s.ones_le⟩
  have hwf := ((inv_iff s).mp hinv).2.1
  have hset : (Finset.range s.m.toNat).filter (fun p => 0 < s.arr.read p) = (s.arr.map Prod.fst).toFinset := by
    ext p
    rw [Finset.mem_filter, Finset.mem_range, List.mem_toFinset, ← s.arr.read_pos_iff hwf]
    refine ⟨And.right, fun hpos => ⟨?_, hpos⟩⟩
    by_contra hp
    exact absurd ((arr_le s hinv hvalid p).2 (Nat.le_of_not_lt hp)) hpos.ne'
  rw [State.ones_eq_card, hset, List.toFinset_card_of_nodup (s.arr.nodup_positions hwf), List.length_map]

/-- The projection of R98 (d) gives patterns that R98 (d) allows. -/
theorem f64FiniteNonneg_constrain (x : Word64) : f64FiniteNonneg (f64Constrain x) = true := by
  unfold f64Constrain
  split
  · assumption
  · decide

theorem f64FiniteNonneg_iff (x : Word64) :
    f64FiniteNonneg x = true ↔ x.toNat < 0x7FF0000000000000 ∨ x = 0x8000000000000000#64 := by
  rw [f64FiniteNonneg, Bool.or_eq_true, decide_eq_true_eq, decide_eq_true_eq]
  exact Iff.rfl

/-- What R98 says of the two statistics. -/
theorem numCard_numFpr_cases (m k ones : Nat) (hm : 1 ≤ m) :
    (ones = 0 → numCard m k ones = f64Zero ∧ numFpr m k ones = f64Zero) ∧
    (ones = m → numCard m k ones = f64Inf ∧ numFpr m k ones = f64One) ∧
    (0 < ones → ones < m →
      f64FiniteNonneg (numCard m k ones) = true ∧ f64FiniteNonneg (numFpr m k ones) = true) := by
  refine ⟨fun hzero => ?_, fun hfull => ?_, fun hlow hhigh => ?_⟩
  · exact ⟨if_pos hzero, if_pos hzero⟩
  · have hpos : ones ≠ 0 := by omega
    rw [numCard, numFpr, if_neg hpos, if_neg hpos]
    exact ⟨if_pos hfull, if_pos hfull⟩
  · rw [numCard, numFpr, if_neg hlow.ne', if_neg hlow.ne', if_neg hhigh.ne, if_neg hhigh.ne]
    exact ⟨f64FiniteNonneg_constrain _, f64FiniteNonneg_constrain _⟩

/-- With a filter, `EST` answers its three numbers (R96). -/
theorem exec_est {s : State} (hvalid : s.valid = true) :
    exec .est s = .next (s.answered ([0#8, 0#8, 0#8, 0#8, 0#8, 0#8, 0#8, 24#8] ++ s.estPayload)) := by
  have hlen : s.estPayload.length = 24 := by simp [State.estPayload]
  rw [exec_normal .est s rfl (fun _ => hvalid) rfl, respond_eq_answered]
  show Host.Outcome.next (s.answered (respFrame codeOk s.estPayload)) = _
  rw [respFrame, hlen]
  rfl

/-- Settles O38: the count fits its 8 bytes, and the two patterns are those of R98. -/
theorem estReportsOnesAndCorners : Obligations.EstReportsOnesAndCorners := by
  intro s hinv hvalid
  obtain ⟨hzero, hfull, hbetween⟩ := numCard_numFpr_cases s.m.toNat s.k.toNat s.ones (one_le_m hinv hvalid)
  simp only [f64FiniteNonneg_iff] at hbetween
  exact ⟨s.ones, numCard s.m.toNat s.k.toNat s.ones, numFpr s.m.toNat s.k.toNat s.ones, s.ones_eq_card,
    fromBe_be_eight_of_le s.ones_le, exec_est hvalid, hzero, hfull, hbetween⟩

/-- Settles O40: the exponent of R97's estimate is `ln(1 - ones/M)`, so the power of `e` is `1 - ones/M`. -/
theorem fprEstimateSimplifies : Obligations.FprEstimateSimplifies := by
  intro m k ones x y hm hk hones hcard hfpr
  have hm0 : (0 : ℝ) < m := by exact_mod_cast hm
  have hk0 : (0 : ℝ) < k := by exact_mod_cast hk
  have hclear : 0 < 1 - (ones : ℝ) / m := by
    rw [sub_pos, div_lt_one hm0]
    exact_mod_cast hones
  have hexponent : -(k : ℝ) * x / m = Real.log (1 - (ones : ℝ) / m) := by
    rw [hcard]
    field_simp
  rw [IsFprOf] at hfpr
  rw [hfpr, hexponent, Real.exp_log hclear, sub_sub_cancel]

end Sys2Proof.Machine

/-! The Counting Layer (43_counting.md): `INS` and `REM` on counters (R111 to R115), and the false negative of R119. -/

namespace Sys2Proof.Machine

section
variable {s : State} {key : List Byte}

/-- The counters after `INS` (R113): cells that the key does not target are at most `CMAX` already. -/
theorem read_normalEnd_ins_counting (hinv : s.inv = true) (hvalid : s.valid = true)
    (hcounting : s.build.variant = .counting) (p : Nat) :
    (normalEnd (.ins key) s).1.arr.read p = min (s.arr.read p + s.mult key p) (cmax s.build) := by
  have hmax := (arr_le s hinv hvalid p).1
  refine (read_bumpAll_counting _ hcounting _ _ ((inv_iff s).mp hinv).2.1 p).trans ?_
  split
  · rfl
  · next hp =>
    rw [State.mult, List.count_eq_zero.mpr hp]
    omega

/-- The counters after `REM` (R115). -/
theorem read_normalEnd_rem (hinv : s.inv = true) (p : Nat) :
    (normalEnd (.rem key) s).1.arr.read p = s.arr.read p - s.mult key p :=
  read_decAll _ _ ((inv_iff s).mp hinv).2.1 p

/-- A counting build has `REM` (R145). -/
theorem implemented_rem {b : Build} (hcounting : b.variant = .counting) : implemented b .rem = true := by
  simp [implemented, hcounting]

/-- `REM` ends normally when every counter covers its multiplicity (R115). -/
theorem exec_rem (hvalid : s.valid = true) (hcounting : s.build.variant = .counting)
    (hcovers : ∀ p, s.mult key p ≤ s.arr.read p) :
    exec (.rem key) s = .next ((normalEnd (.rem key) s).1.answered (bare 0x00#8)) :=
  exec_normal_bare (implemented_rem hcounting) hvalid (if_pos ((covers_iff ..).mpr hcovers)) rfl

end

/-- Settles O29: a cell that the key does not target has multiplicity 0 and is at most `CMAX` already. -/
theorem insCountsUpToTheMaximum : Obligations.InsCountsUpToTheMaximum :=
  fun s key hinv hvalid hcounting =>
    ⟨(normalEnd (.ins key) s).1.arr, exec_ins key hvalid, read_normalEnd_ins_counting hinv hvalid hcounting⟩

/-- Settles O44: where every counter covers its multiplicity, the subtraction loses nothing. -/
theorem remLowersByMultiplicity : Obligations.RemLowersByMultiplicity := by
  intro s key hinv hvalid hcounting hcovers
  refine ⟨(normalEnd (.rem key) s).1.arr, exec_rem hvalid hcounting hcovers, fun p => ?_⟩
  rw [read_normalEnd_rem hinv]
  exact Nat.sub_add_cancel (hcovers p)

/-- The check of `REM` fails exactly when a targeted counter is too small (R115). -/
theorem covers_eq_false_iff (a : Memory) (ps : List Nat) :
    covers a ps = false ↔ ∃ p ∈ ps, a.read p < ps.count p := by
  simp [covers]

/-- Settles O45: `REM`'s only operand check is that of R115, and `NotPresent` is its condition alone. -/
theorem remIsAllOrNothing : Obligations.RemIsAllOrNothing := by
  intro s t key hcounting hvalid hexec
  have hreported : reportedCondition (.rem key) s = operandCheck (.rem key) s :=
    reportedCondition_of_ready (implemented_rem hcounting) fun _ => hvalid
  constructor
  · calc (∃ p ∈ s.posList key, s.arr.read p < s.mult key p)
        ↔ covers s.arr (s.posList key) = false := (covers_eq_false_iff ..).symm
      _ ↔ operandCheck (.rem key) s = some .notPresent := by
          cases hcovers : covers s.arr (s.posList key) <;> simp [operandCheck, hcovers]
      _ ↔ t.lastResponse = some (bare 0x05#8) := by
          rw [← hreported]
          exact (lastResponse_eq_condition_iff hexec .notPresent).symm
  · rintro ⟨p, -, hlow⟩
    cases (exec_rem_notPresent hcounting hvalid ⟨p, hlow⟩).symm.trans hexec
    rfl

/-- Where no increment is suppressed, the decrements undo the increments (R113 (b), R115). -/
theorem decAll_bumpAll {b : Build} {a : Memory} {ps : List Nat} (hcounting : b.variant = .counting) (hwf : a.wf = true)
    (hroom : ∀ p, a.read p + ps.count p ≤ cmax b) : decAll (bumpAll b a ps) ps = a := by
  have hwf' := wf_bumpAll b a ps hwf
  refine Memory.ext_read _ _ (wf_decAll _ _ hwf') hwf fun p => ?_
  rw [read_decAll _ _ hwf', read_bumpAll_counting b hcounting _ _ hwf, min_eq_left (hroom p)]
  split
  · exact Nat.add_sub_cancel ..
  · next hp => rw [List.count_eq_zero.mpr hp, Nat.sub_zero]

/-- The normal ends of `INS` and then `REM` leave the first state, but for the response between them. -/
theorem normalEnd_rem_after_ins {s : State} {key : List Byte} (hinv : s.inv = true)
    (hcounting : s.build.variant = .counting) (hroom : ∀ p, s.arr.read p + s.mult key p ≤ cmax s.build)
    (r : List Byte) : (normalEnd (.rem key) ((normalEnd (.ins key) s).1.answered r)).1 = s.answered r := by
  have harr := decAll_bumpAll hcounting ((inv_iff s).mp hinv).2.1 hroom
  show State.answered { s with arr := decAll (bumpAll s.build s.arr (s.posList key)) (s.posList key) } r = _
  rw [harr]

/-- Settles O46: no increment is suppressed, so every counter covers its multiplicity and is lowered to what it was. -/
theorem remUndoesIns : Obligations.RemUndoesIns := by
  intro s key hinv hvalid hcounting hroom
  have hcovers : ∀ p, s.mult key p ≤ (normalEnd (.ins key) s).1.arr.read p := fun p => by
    rw [read_normalEnd_ins_counting hinv hvalid hcounting, cmax, min_eq_left (hroom p)]
    exact Nat.le_add_left ..
  refine ⟨_, exec_ins key hvalid, ?_⟩
  rw [exec_rem (s := (normalEnd (.ins key) s).1.answered _) hvalid hcounting hcovers,
    normalEnd_rem_after_ins hinv hcounting hroom]

/-- A counting filter of one cell with counter `v`, in which every key has the one position 0 (41 R80 (a)). -/
def oneCounter (v : Nat) : State :=
  { State.reset with
    build := Build.counting4, valid := true, m := 1#64, k := 1#32, arr := Memory.ofFn 1 (fun _ => v) }

theorem oneCounter_posList (v : Nat) (key : List Byte) : (oneCounter v).posList key = [0] :=
  State.posList_of_m_one key rfl

/-- Delivering a response moves no position. -/
@[simp] theorem State.posList_answered (s : State) (r key : List Byte) : (s.answered r).posList key = s.posList key :=
  rfl

theorem exec_ins_oneCounter (key : List Byte) :
    exec (.ins key) (oneCounter 0) = .next ((oneCounter 1).answered (bare 0x00#8)) := by
  rw [exec_ins key rfl]
  simp only [normalEnd, oneCounter_posList]
  rfl

theorem exec_rem_oneCounter (key r : List Byte) :
    exec (.rem key) ((oneCounter 1).answered r) = .next (((oneCounter 0).answered r).answered (bare 0x00#8)) := by
  have hcovers : ∀ p, ((oneCounter 1).answered r).mult key p ≤ ((oneCounter 1).answered r).arr.read p := by
    refine (covers_iff ..).mp ?_
    rw [State.posList_answered, oneCounter_posList]
    rfl
  rw [exec_rem rfl rfl hcovers]
  simp only [normalEnd, State.posList_answered, oneCounter_posList]
  rfl

/-- Settles O47 with two keys of a filter of one counter: removing one key clears the other key's cell. -/
theorem removalCanHideAnotherKey : Obligations.RemovalCanHideAnotherKey := by
  have hqry : ∃ p ∈ (oneCounter 0).posList [], (oneCounter 0).arr.read p = 0 :=
    ⟨0, by rw [oneCounter_posList]; exact List.mem_singleton_self 0, rfl⟩
  refine ⟨oneCounter 0, _, _, _, [], [1#8], by decide, by decide, rfl, rfl, exec_ins_oneCounter [],
    lastResponse_answered .., exec_rem_oneCounter [1#8] _, lastResponse_answered .., exec_qry_absent rfl hqry,
    lastResponse_answered ..⟩

end Sys2Proof.Machine
